-- ==== Sys2Proof/Word.lean ====
section
/-! DEFINITION. The words of this hardware: bytes, 32-bit words, 128-bit blocks, the GF(2^8) matrices and
columns, and the values that can stand on the input pins of its eight modules. -/

namespace Sys2Proof

/-- A byte, unsigned, bit 0 least significant (R6). -/
abbrev Byte := BitVec 8

/-- A word of four bytes, byte 0 in bits 31:24 (R9). -/
abbrev Word := BitVec 32

/-- A 128-bit bus value: a Block, a Key, a State or a round key, byte 0 in bits 127:120 (R7). -/
abbrev Block := BitVec 128

/-- The four bytes of one column, row 0 first (R9, R112). -/
abbrev Column := Vector Byte 4

/-- A 4x4 matrix of GF(2^8) coefficients, a list of rows (R112, R150). -/
abbrev Matrix := Vector (Vector Byte 4) 4

/-- The eleven round keys of one schedule, round 0 first (R24, R130). -/
abbrev RoundKeys := Vector Block 11

/-- The eight hardware modules (R2). -/
inductive Module where
  | galoisFieldMult
  | aesSbox
  | aesKeySchedule
  | subBytesStage
  | shiftRowsStage
  | mixColumnsStage
  | addRoundKeyStage
  | aesCore
deriving DecidableEq, Repr

/-- The input ports of `aes_core` as sampled at one rising edge of `clk` (R81, R82). -/
structure CorePins where
  rst     : Bool
  start   : Bool
  op      : BitVec 1
  dataLen : BitVec 5
  keyLen  : BitVec 5
  blockIn : Block
  keyIn   : Block
deriving DecidableEq, Repr

/-- The input pins of one module: selecting bits and operand bits together (R80, R81, R89 to R93).
A value of `core` is one rising edge of `clk`; a value of any other constructor is new levels on the
inputs of a combinational module, which has no clock. -/
inductive Pins where
  | core        (p : CorePins)
  | gfm         (a b : Byte)
  | sbox        (inv : BitVec 1) (x : Byte)
  | keySchedule (key : Block)
  | subBytes    (inv : BitVec 1) (sIn : Block)
  | shiftRows   (inv : BitVec 1) (sIn : Block)
  | mixColumns  (inv : BitVec 1) (sIn : Block)
  | addRoundKey (sIn rk : Block)
deriving DecidableEq, Repr

/-- The module whose pins these are. -/
def Pins.module : Pins → Module
  | .core _          => .aesCore
  | .gfm _ _         => .galoisFieldMult
  | .sbox _ _        => .aesSbox
  | .keySchedule _   => .aesKeySchedule
  | .subBytes _ _    => .subBytesStage
  | .shiftRows _ _   => .shiftRowsStage
  | .mixColumns _ _  => .mixColumnsStage
  | .addRoundKey _ _ => .addRoundKeyStage

/-- What the host does next: put values on one module's input pins, or wait for the core.
`wait` is the written line WAIT: "the host waits until `busy = 0`" (R97). -/
inductive HostAction where
  | drive (p : Pins)
  | wait
deriving DecidableEq, Repr

end Sys2Proof
end

