-- ==== Sys2Proof/Config.lean ====
section
/-! DEFINITION. The fixed parameters of the block (R5), and what this model does with the open ones.
The spec leaves no data value open ("No data value is left open", 92_eei_decisions.md), so there is no
free value here. The one open parameter a run could show, `LATENCY` (R243), is not a number of this file:
every state carries its own list of paces (`Machine.State.pace`), over which every statement quantifies. -/

namespace Sys2Proof.Config

/-- The one legal operand length in bytes: "Block: exactly 16 bytes", "Key: exactly 16 bytes" (R5, R56). -/
def operandBytes : BitVec 5 := 16

/-- Sequencer transitions at one clock edge in `RUN` where the list of paces says nothing: one, the
reference timing (R173, R244). DESIGN CHOICE (notes/assumptions/3.md): no statement rests on it but one
that says so. -/
def referencePace : Nat := 1

end Sys2Proof.Config
end

