-- ==== Sys2Proof/Machine/AddRoundKey.lean ====
section
/-! DEFINITION. The function of `addroundkey_stage` (46_addroundkey_stage.md). -/

namespace Sys2Proof.Machine

/-- ADDROUNDKEY: `s_out <- s_in ^ rk` (R93, R160). -/
def addRoundKey (sIn rk : Block) : Block := sIn ^^^ rk

end Sys2Proof.Machine
end

