-- ==== Sys2Proof/Machine/Operands.lean ====
section
/-! DEFINITION. The views of a 128-bit operand: its bytes, its 4x4 matrix cells, its rows and columns, and the
words of the key schedule; byte order and layout are decided here and nowhere else (R7 to R9, R50 to R53). -/

namespace Sys2Proof.Machine

/-- `byte(B, i) = B[127-8i : 120-8i]`: byte 0 is the most significant byte (R7). -/
def byteOf (B : Block) (i : Fin 16) : Byte := B.extractLsb' (120 - 8 * i.val) 8

/-- `bytes16(f 0, ..., f 15)` (R10). -/
def blockOfBytes (f : Fin 16 → Byte) : Block :=
  f 0 ++ f 1 ++ f 2 ++ f 3 ++ f 4 ++ f 5 ++ f 6 ++ f 7 ++
  f 8 ++ f 9 ++ f 10 ++ f 11 ++ f 12 ++ f 13 ++ f 14 ++ f 15

/-- `cell(B, r, c) = byte(B, r + 4c)`: the matrix is filled column by column (R8, R51). -/
def cellOf (B : Block) (r c : Fin 4) : Byte := byteOf B ⟨r.val + 4 * c.val, by omega⟩

/-- The block whose cell in row `r` and column `c` is `f r c` (R8): byte `i` lies in row `i mod 4` and
column `i / 4`. -/
def blockOfCells (f : Fin 4 → Fin 4 → Byte) : Block :=
  blockOfBytes fun i => f ⟨i.val % 4, by omega⟩ ⟨i.val / 4, by omega⟩

/-- `row(B, r)`, the bytes `r, r+4, r+8, r+12` (R52). -/
def rowOf (B : Block) (r : Fin 4) : Column := #v[cellOf B r 0, cellOf B r 1, cellOf B r 2, cellOf B r 3]

/-- Column `c` as its four cells, row 0 first (R9, R152). -/
def columnOf (B : Block) (c : Fin 4) : Column := #v[cellOf B 0 c, cellOf B 1 c, cellOf B 2 c, cellOf B 3 c]

/-- `col(B, c) = B[127-32c : 96-32c]`, the word of bytes `4c .. 4c+3` (R52). -/
def colWord (B : Block) (c : Fin 4) : Word := B.extractLsb' (96 - 32 * c.val) 32

/-- `word(b0, b1, b2, b3)`, byte 0 most significant (R9, R10). -/
def wordOf (b0 b1 b2 b3 : Byte) : Word := b0 ++ b1 ++ b2 ++ b3

/-- Byte `j` of a word, byte 0 in bits 31:24 (R9). -/
def wordByte (w : Word) (j : Fin 4) : Byte := w.extractLsb' (24 - 8 * j.val) 8

/-- The round key whose columns are four words, in order: their plain concatenation (R53). -/
def blockOfWords (w0 w1 w2 w3 : Word) : Block := w0 ++ w1 ++ w2 ++ w3

/-- `rk_flat`: the eleven round keys concatenated, round 0 most significant (R92). -/
def flattenRoundKeys (rks : RoundKeys) : BitVec 1408 :=
  rks[0] ++ rks[1] ++ rks[2] ++ rks[3] ++ rks[4] ++ rks[5] ++ rks[6] ++ rks[7] ++ rks[8] ++ rks[9] ++ rks[10]

/-- `rk[r] = rk_flat[1407-128r : 1280-128r]` (R92). -/
def roundKeyOfFlat (flat : BitVec 1408) (r : Fin 11) : Block := flat.extractLsb' (1280 - 128 * r.val) 128

end Sys2Proof.Machine
end

