-- ==== Sys2Proof/Machine/KeySchedule.lean ====
section
/-! DEFINITION. The function of `aes_key_schedule` (42_aes_key_schedule.md) and its round constants (R125). -/

namespace Sys2Proof.Machine

/-- `RCON[1..10]`, entry `r` at position `r - 1`; there is no entry 0 (R125, 93_implementation_defined.md U2). -/
def RCON : Vector Byte 10 := #v[0x01, 0x02, 0x04, 0x08, 0x10, 0x20, 0x40, 0x80, 0x1B, 0x36]

/-- `RotWord([b0, b1, b2, b3]) = [b1, b2, b3, b0]` (R131). -/
def rotWord (t : Word) : Word := wordOf (wordByte t 1) (wordByte t 2) (wordByte t 3) (wordByte t 0)

/-- `SubWord`: the forward S-box on each byte (R132). -/
def subWord (t : Word) : Word :=
  wordOf (sbox (wordByte t 0)) (sbox (wordByte t 1)) (sbox (wordByte t 2)) (sbox (wordByte t 3))

/-- `RCON[i/4]` as a word whose other three bytes are 0, for the word index `i = k + 4` in 4..43 (R133). -/
def rconWord (k : Fin 40) : Word := wordOf (RCON[(k.val + 4) / 4 - 1]'(by omega)) 0x00 0x00 0x00

/-- `g(i, t)` for the word index `i = k + 4` in 4..43: RotWord, then SubWord, then the round constant into
the first byte where `i mod 4 = 0`, and `t` itself elsewhere (R130, R133). -/
def scheduleCore (k : Fin 40) (t : Word) : Word :=
  if (k.val + 4) % 4 = 0 then subWord (rotWord t) ^^^ rconWord k else t

/-- The words `w[0] .. w[n+3]`: the four columns of the key, then `w[i] = w[i-4] ^ g(i, w[i-1])` in
increasing `i` (R130, R133). -/
def scheduleWords (key : Block) : (n : Nat) → n ≤ 40 → Vector Word (n + 4)
  | 0, _ => #v[colWord key 0, colWord key 1, colWord key 2, colWord key 3]
  | n + 1, h =>
    let w := scheduleWords key n (Nat.le_of_succ_le h)
    w.push (w[n] ^^^ scheduleCore ⟨n, h⟩ w[n + 3])

/-- `w[0..43]` (R130). -/
def keyWords (key : Block) : Vector Word 44 := scheduleWords key 40 (Nat.le_refl 40)

/-- EXPANDKEY: `rk[r] = w[4r] || w[4r+1] || w[4r+2] || w[4r+3]` for `r` in 0..10 (R130, R134). -/
def expandKey (key : Block) : RoundKeys :=
  let w := keyWords key
  Vector.ofFn fun r : Fin 11 =>
    blockOfWords (w[4 * r.val]'(by omega)) (w[4 * r.val + 1]'(by omega))
      (w[4 * r.val + 2]'(by omega)) (w[4 * r.val + 3]'(by omega))

end Sys2Proof.Machine
end

