-- ==== Sys2Proof/Machine/Galois.lean ====
section
/-! DEFINITION. The function of `galois_field_mult` and the helper `xor_dot` (40_galois_field_mult.md). -/

namespace Sys2Proof.Machine

/-- One shift of `aa` with its reduction: a 9-bit left shift, then XOR with 0x1B if bit 8 became set; bit 8
itself is discarded (R110, 90_conflicts.md C1). -/
def shiftReduce (aa : Byte) : Byte :=
  let a9 : BitVec 9 := aa.zeroExtend 9 <<< 1
  if a9.getLsbD 8 then a9.extractLsb' 0 8 ^^^ 0x1B else a9.extractLsb' 0 8

/-- `n` iterations of the loop of R110: test and accumulate, then shift and reduce `aa`, then shift `bb`. -/
def gmultLoop : Nat → Byte → Byte → Byte → Byte
  | 0, acc, _, _ => acc
  | n + 1, acc, aa, bb =>
    gmultLoop n (if bb.getLsbD 0 then acc ^^^ aa else acc) (shiftReduce aa) (bb >>> 1)

/-- GMULT, `gmult(a, b)`: eight iterations from `acc = 0` (R110); total, with no restriction on `a` (R114). -/
def gmult (a b : Byte) : Byte := gmultLoop 8 0x00 a b

/-- `xor_dot(A, B)`: `result[i] = XOR over k of gmult(A[i][k], B[k])` (R112). -/
def xorDot (A : Matrix) (B : Column) : Column :=
  Vector.ofFn fun i : Fin 4 =>
    gmult A[i][0] B[0] ^^^ gmult A[i][1] B[1] ^^^ gmult A[i][2] B[2] ^^^ gmult A[i][3] B[3]

end Sys2Proof.Machine
end

