-- ==== Sys2Proof/Machine/MixColumns.lean ====
section
/-! DEFINITION. The function of `mixcolumns_stage` and its two constant matrices (45_mixcolumns_stage.md). -/

namespace Sys2Proof.Machine

/-- The MixColumnsMatrix (R150). -/
def MIX : Matrix := #v[
  #v[0x02, 0x03, 0x01, 0x01],
  #v[0x01, 0x02, 0x03, 0x01],
  #v[0x01, 0x01, 0x02, 0x03],
  #v[0x03, 0x01, 0x01, 0x02]]

/-- The InverseMixColumnsMatrix (R151). -/
def INVMIX : Matrix := #v[
  #v[0x0e, 0x0b, 0x0d, 0x09],
  #v[0x09, 0x0e, 0x0b, 0x0d],
  #v[0x0d, 0x09, 0x0e, 0x0b],
  #v[0x0b, 0x0d, 0x09, 0x0e]]

/-- Each column `c` replaced by `xor_dot(A, column c)` (R152, R153). -/
def mixWith (A : Matrix) (sIn : Block) : Block := blockOfCells fun i c => (xorDot A (columnOf sIn c))[i]

/-- MIXCOLUMNS (R152). -/
def mixColumns (sIn : Block) : Block := mixWith MIX sIn

/-- INVMIXCOLUMNS (R153). -/
def invMixColumns (sIn : Block) : Block := mixWith INVMIX sIn

/-- The output `s_out` of `mixcolumns_stage` (R91). -/
def mixColumnsStage (inv : BitVec 1) (sIn : Block) : Block := if inv = 0 then mixColumns sIn else invMixColumns sIn

end Sys2Proof.Machine
end

