-- ==== Sys2Proof/Machine/ShiftRows.lean ====
section
/-! DEFINITION. The function of `shiftrows_stage` (44_shiftrows_stage.md). -/

namespace Sys2Proof.Machine

/-- SHIFTROWS: `cell(s_out, r, c) <- cell(s_in, r, (c + r) mod 4)` (R145). -/
def shiftRows (sIn : Block) : Block := blockOfCells fun r c => cellOf sIn r (c + r)

/-- INVSHIFTROWS: `cell(s_out, r, c) <- cell(s_in, r, (c - r) mod 4)` (R146). -/
def invShiftRows (sIn : Block) : Block := blockOfCells fun r c => cellOf sIn r (c - r)

/-- The output `s_out` of `shiftrows_stage` (R91). -/
def shiftRowsStage (inv : BitVec 1) (sIn : Block) : Block := if inv = 0 then shiftRows sIn else invShiftRows sIn

end Sys2Proof.Machine
end

