-- ==== Sys2Proof/Machine/SubBytes.lean ====
section
/-! DEFINITION. The function of `subbytes_stage` (43_subbytes_stage.md). -/

namespace Sys2Proof.Machine

/-- SUBBYTES: `byte(s_out, i) <- SBOX[byte(s_in, i)]` (R140). -/
def subBytes (sIn : Block) : Block := blockOfBytes fun i => sbox (byteOf sIn i)

/-- INVSUBBYTES: `byte(s_out, i) <- INVSBOX[byte(s_in, i)]` (R141). -/
def invSubBytes (sIn : Block) : Block := blockOfBytes fun i => invSbox (byteOf sIn i)

/-- The output `s_out` of `subbytes_stage` (R91). -/
def subBytesStage (inv : BitVec 1) (sIn : Block) : Block := if inv = 0 then subBytes sIn else invSubBytes sIn

end Sys2Proof.Machine
end

