-- ==== Sys2Proof/Machine/Cipher.lean ====
section
/-! DEFINITION. The two commands as functions (R165, R166), and the micro-sequences that the sequencer
steps through (R170 to R172). -/

namespace Sys2Proof.Machine

/-- A micro-operation (R170, R171). -/
inductive MicroOp where
  | ark (r : Fin 11)
  | sb
  | sr
  | mc
  | isb
  | isr
  | imc
deriving DecidableEq, Repr

/-- `UENC[0..39]` (R170). -/
def UENC : Vector MicroOp 40 := #v[
  .ark 0,
  .sb, .sr, .mc, .ark 1,
  .sb, .sr, .mc, .ark 2,
  .sb, .sr, .mc, .ark 3,
  .sb, .sr, .mc, .ark 4,
  .sb, .sr, .mc, .ark 5,
  .sb, .sr, .mc, .ark 6,
  .sb, .sr, .mc, .ark 7,
  .sb, .sr, .mc, .ark 8,
  .sb, .sr, .mc, .ark 9,
  .sb, .sr, .ark 10]

/-- `UDEC[0..39]` (R171). -/
def UDEC : Vector MicroOp 40 := #v[
  .ark 10, .isr, .isb,
  .ark 9, .imc, .isr, .isb,
  .ark 8, .imc, .isr, .isb,
  .ark 7, .imc, .isr, .isb,
  .ark 6, .imc, .isr, .isb,
  .ark 5, .imc, .isr, .isb,
  .ark 4, .imc, .isr, .isb,
  .ark 3, .imc, .isr, .isb,
  .ark 2, .imc, .isr, .isb,
  .ark 1, .imc, .isr, .isb,
  .ark 0]

/-- The sequence that `op_q` selects: `UENC` for 0, `UDEC` for 1 (R22, R176). -/
def microSequence (op : BitVec 1) : Vector MicroOp 40 := if op = 0 then UENC else UDEC

/-- `apply(u, S, rks)` (R172). -/
def applyMicroOp (u : MicroOp) (S : Block) (rks : RoundKeys) : Block :=
  match u with
  | .ark r => addRoundKey S rks[r]
  | .sb => subBytesStage 0 S
  | .isb => subBytesStage 1 S
  | .sr => shiftRowsStage 0 S
  | .isr => shiftRowsStage 1 S
  | .mc => mixColumnsStage 0 S
  | .imc => mixColumnsStage 1 S

/-- One of ENCRYPT's rounds 1..9 (R165). -/
def encryptRound (rk : RoundKeys) (S : Block) (round : Fin 11) : Block :=
  addRoundKey (mixColumns (shiftRows (subBytes S))) rk[round]

/-- `Encrypt(P, K)` (R165): round 0, rounds 1..9 ascending, and round 10 without MixColumns. -/
def encrypt (P K : Block) : Block :=
  let rk := expandKey K
  let S := ([1, 2, 3, 4, 5, 6, 7, 8, 9] : List (Fin 11)).foldl (encryptRound rk) (addRoundKey P rk[0])
  addRoundKey (shiftRows (subBytes S)) rk[10]

/-- One of DECRYPT's rounds 9..1 (R166). -/
def decryptRound (rk : RoundKeys) (S : Block) (round : Fin 11) : Block :=
  invSubBytes (invShiftRows (invMixColumns (addRoundKey S rk[round])))

/-- `Decrypt(C, K)` (R166): the same schedule, round keys in descending order. -/
def decrypt (C K : Block) : Block :=
  let rk := expandKey K
  let S := ([9, 8, 7, 6, 5, 4, 3, 2, 1] : List (Fin 11)).foldl (decryptRound rk)
    (invSubBytes (invShiftRows (addRoundKey C rk[10])))
  addRoundKey S rk[0]

/-- The function of the command that `op` selects: `Encrypt` for 0, `Decrypt` for 1 (R81). -/
def cipher (op : BitVec 1) (block key : Block) : Block :=
  if op = 0 then encrypt block key else decrypt block key

end Sys2Proof.Machine
end

