-- ==== Sys2Proof/Machine/State.lean ====
section
/-! DEFINITION. The machine state as plain data: the registers of `aes_core` (R20), the wires of the seven
combinational modules (R89 to R93), the host's pending actions and the list of paces; the reasons to stop;
the state after reset. -/

namespace Sys2Proof.Machine

/-- `IDLE` = 0 or `RUN` = 1 (R21). -/
inductive Fsm where
  | idle
  | run
deriving DecidableEq, Repr

/-- Every register of the block: "All state of the block lives in `aes_core`" (R20). -/
structure CoreRegs where
  /-- `fsm` (R21). -/
  fsm      : Fsm
  /-- `op_q`: 0 Encrypt, 1 Decrypt (R22). -/
  opQ      : BitVec 1
  /-- `seq[5:0]`, the sequence counter (R25). -/
  seq      : BitVec 6
  /-- `state[127:0]`, the State (R23). -/
  state    : Block
  /-- `rks[0..10]`, the RoundKeySchedule (R24). -/
  rks      : RoundKeys
  /-- `block_out[127:0]` (R26). -/
  blockOut : Block
  /-- `done` (R27). -/
  done     : Bool
  /-- `err` (R28). -/
  err      : Bool
deriving DecidableEq, Repr

/-- The wires of `galois_field_mult` (R89). -/
structure GfmWires where
  a : Byte
  b : Byte
  p : Byte
deriving DecidableEq, Repr

/-- The wires of `aes_sbox` (R90). -/
structure SboxWires where
  inv : BitVec 1
  x   : Byte
  y   : Byte
deriving DecidableEq, Repr

/-- The wires of `aes_key_schedule` (R92). -/
structure KeyScheduleWires where
  key    : Block
  rkFlat : BitVec 1408
deriving DecidableEq, Repr

/-- The wires of `subbytes_stage`, `shiftrows_stage` or `mixcolumns_stage` (R91). -/
structure StageWires where
  inv  : BitVec 1
  sIn  : Block
  sOut : Block
deriving DecidableEq, Repr

/-- The wires of `addroundkey_stage` (R93). -/
structure AddRoundKeyWires where
  sIn  : Block
  rk   : Block
  sOut : Block
deriving DecidableEq, Repr

/-- The levels on the ports of the seven combinational modules. They are wires and no registers (R32): an
output is always the module's function of the inputs beside it (`WiresSettled` in Safety.lean). -/
structure ModuleWires where
  gfm         : GfmWires
  sbox        : SboxWires
  keySchedule : KeyScheduleWires
  subBytes    : StageWires
  shiftRows   : StageWires
  mixColumns  : StageWires
  addRoundKey : AddRoundKeyWires
deriving DecidableEq, Repr

/-- The machine. `host` is what the host still has to do, oldest first (R13). `pace` says, for each coming
clock edge taken in `RUN`, how many sequencer transitions the implementation takes at it: R173 and R243
leave the number open, edge by edge. Both are the model's own fields. -/
structure State where
  core  : CoreRegs
  wires : ModuleWires
  host  : List HostAction
  pace  : List Nat
deriving DecidableEq, Repr

/-- Why the machine stops. -/
inductive Fault where
  /-- Raised by the sequencer, in `RUN` with `seq` above 40: no line of R173 applies. Safe: R25 says the
  value never exceeds 40, and no step from a state with `seq ≤ 40` in `RUN` leads to such a state. -/
  | seqOutOfRange
deriving DecidableEq, Repr

/-- Why an operation has no meaning. -/
inductive Refusal where
  /-- Raised by exec's arm of an operation that is not modelled; no arm raises it now. Safe: nothing is
  claimed of such an operation. -/
  | notModelled (mnemonic : String)
deriving DecidableEq, Repr

/-- Every register 0 (R33, R231). -/
def CoreRegs.reset : CoreRegs where
  fsm := .idle
  opQ := 0
  seq := 0
  state := 0
  rks := Vector.replicate 11 0
  blockOut := 0
  done := false
  err := false

/-- The wires of modules whose inputs are all low: each output is its module's function of them.
DESIGN CHOICE (notes/assumptions/5.md): the spec gives undriven inputs no level. -/
def ModuleWires.reset : ModuleWires where
  gfm := { a := 0, b := 0, p := gmult 0 0 }
  sbox := { inv := 0, x := 0, y := aesSbox 0 0 }
  keySchedule := { key := 0, rkFlat := flattenRoundKeys (expandKey 0) }
  subBytes := { inv := 0, sIn := 0, sOut := subBytesStage 0 0 }
  shiftRows := { inv := 0, sIn := 0, sOut := shiftRowsStage 0 0 }
  mixColumns := { inv := 0, sIn := 0, sOut := mixColumnsStage 0 0 }
  addRoundKey := { sIn := 0, rk := 0, sOut := Machine.addRoundKey 0 0 }

/-- The machine right after reset (R33, R231): every register 0, nothing asked of it by the host yet. The
empty list of paces is the reference timing (notes/assumptions/3.md). -/
def State.reset : State where
  core := CoreRegs.reset
  wires := ModuleWires.reset
  host := []
  pace := []

end Sys2Proof.Machine
end

