-- ==== Sys2Proof/Machine/Flags.lean ====
section
/-! DEFINITION. The status outputs and every write to them: `busy`, `done`, `err` and the result register
`block_out`, which changes with them (R26 to R30, R58). -/

namespace Sys2Proof.Machine

/-- `busy = fsm` (R21, R29). -/
def CoreRegs.busy (c : CoreRegs) : Bool := c.fsm == .run

/-- `status[2:0] = err, done, busy` (R30). -/
def CoreRegs.status (c : CoreRegs) : BitVec 3 :=
  BitVec.ofBool c.err ++ BitVec.ofBool c.done ++ BitVec.ofBool c.busy

/-- The output ports of `aes_core` (R81); nothing else of it can be observed (R84). -/
structure CoreOutputs where
  busy     : Bool
  done     : Bool
  err      : Bool
  blockOut : Block
deriving DecidableEq, Repr

/-- What stands on the output ports. -/
def CoreRegs.outputs (c : CoreRegs) : CoreOutputs :=
  { busy := c.busy, done := c.done, err := c.err, blockOut := c.blockOut }

/-- At acceptance: `done <- 0 ; err <- 0 ; block_out <- 0` (R174). -/
def CoreRegs.clearResponse (c : CoreRegs) : CoreRegs := { c with done := false, err := false, blockOut := 0 }

/-- At finish: `block_out <- state ; done <- 1`; `err` is not written (R177). -/
def CoreRegs.signalDone (c : CoreRegs) : CoreRegs := { c with blockOut := c.state, done := true }

/-- At rejection: `err <- 1 ; done <- 0 ; block_out <- 0` (R203). -/
def CoreRegs.signalInvalidLength (c : CoreRegs) : CoreRegs := { c with err := true, done := false, blockOut := 0 }

end Sys2Proof.Machine
end

