-- ==== Sys2Proof/Machine/Ops.lean ====
section
/-! DEFINITION. The shared operations: the transitions of the sequencer (R173 to R177, R203, R231), a clock edge
in each situation, and driving the inputs of a combinational module. -/

namespace Sys2Proof.Machine

/-- Reset: every register to 0, "whatever the other inputs and whatever the current state" (R231). -/
def CoreRegs.doReset (_ : CoreRegs) : CoreRegs := CoreRegs.reset

/-- Accept (R174). `op_q` takes `op`; the schedule and the block are captured; `seq` starts at 0. -/
def CoreRegs.accept (op : BitVec 1) (block key : Block) (c : CoreRegs) : CoreRegs :=
  { c.clearResponse with
    opQ := op, rks := expandKey key, state := block, seq := 0, fsm := .run }

/-- TAKING THE ONE EXCEPTION, InvalidLength: the reject transition (R175, R203). There is no vector, no saved
state and no mode; the only trace is `err`, and the next accepted command or reset clears it (R205). -/
def CoreRegs.raiseInvalidLength (c : CoreRegs) : CoreRegs := c.signalInvalidLength

/-- What a presented command does in `IDLE`: accept if both declared lengths are 16, reject otherwise
(R173 lines 3 and 4, R202). -/
def CoreRegs.present (op : BitVec 1) (dataLen keyLen : BitVec 5) (block key : Block) (c : CoreRegs) : CoreRegs :=
  if dataLen = Config.operandBytes ∧ keyLen = Config.operandBytes then c.accept op block key
  else c.raiseInvalidLength

/-- Step: `state <- apply(U[seq], state, rks) ; seq <- seq + 1` (R176). -/
def CoreRegs.seqStep (c : CoreRegs) (h : c.seq.toNat < 40) : CoreRegs :=
  { c with
    state := applyMicroOp ((microSequence c.opQ)[c.seq.toNat]'h) c.state c.rks
    seq := c.seq + 1 }

/-- Finish: the response, and `state`, `rks`, `seq` cleared (R177). -/
def CoreRegs.finish (c : CoreRegs) : CoreRegs :=
  { c.signalDone with state := 0, rks := Vector.replicate 11 0, seq := 0, fsm := .idle }

/-- One transition of the sequencer in `RUN`: step while `seq < 40`, finish at 40 (R173 lines 5 and 6).
Above 40 no line applies. -/
def CoreRegs.transition (c : CoreRegs) : Except Fault CoreRegs :=
  if h : c.seq.toNat < 40 then .ok (c.seqStep h)
  else if c.seq.toNat = 40 then .ok c.finish
  else .error .seqOutOfRange

/-- Up to `n` transitions at one edge; a finish ends them (R173: "several consecutive step transitions and
the finish at one edge"; none is a hold). -/
def CoreRegs.advance : Nat → CoreRegs → Except Fault CoreRegs
  | 0, c => .ok c
  | n + 1, c =>
    match c.fsm with
    | .idle => .ok c
    | .run =>
      match c.transition with
      | .ok c' => CoreRegs.advance n c'
      | .error r => .error r

/-- How many transitions the coming edge in `RUN` takes, and the paces left after it. -/
def nextPace : List Nat → Nat × List Nat
  | [] => (Config.referencePace, [])
  | k :: rest => (k, rest)

/-- A clock edge in `RUN` with `rst = 0`: the running command goes on, and no other input is looked at
(R83, R169). -/
def runEdge (s : State) : Host.Outcome State Fault Refusal :=
  match s.core.advance (nextPace s.pace).1 with
  | .ok c => .next { s with core := c, pace := (nextPace s.pace).2 }
  | .error r => .fault r

/-- A clock edge with `rst = 0`: in `IDLE` the registers change by `atIdle`, in `RUN` the command goes on. -/
def clockEdge (atIdle : CoreRegs → CoreRegs) (s : State) : Host.Outcome State Fault Refusal :=
  match s.core.fsm with
  | .idle => .next { s with core := atIdle s.core }
  | .run => runEdge s

/-- An edge with `rst = 0` and `start = 0`: in `IDLE` "no register changes" (R173 line 2). -/
def quietEdge (s : State) : Host.Outcome State Fault Refusal := clockEdge (fun c => c) s

/-- An edge with `rst = 0` and `start = 1` (R173 lines 3 to 6). -/
def commandEdge (op : BitVec 1) (dataLen keyLen : BitVec 5) (block key : Block) (s : State) :
    Host.Outcome State Fault Refusal :=
  clockEdge (CoreRegs.present op dataLen keyLen block key) s

/-- An edge with `rst = 0`, `start = 1` and an illegal control word: the reject transition in `IDLE`, which
looks at neither data input nor `op` (R175), and nothing in `RUN` (R169). -/
def rejectEdge (s : State) : Host.Outcome State Fault Refusal := clockEdge CoreRegs.raiseInvalidLength s

/-- An edge with `rst = 1` (R173 line 1, R231). -/
def resetEdge (s : State) : Host.Outcome State Fault Refusal := .next { s with core := s.core.doReset }

/-- New levels on the inputs of `galois_field_mult`, and the output they give (R89). -/
def driveGfm (a b : Byte) (s : State) : State :=
  { s with wires := { s.wires with gfm := { a := a, b := b, p := gmult a b } } }

/-- New levels on the inputs of `aes_sbox` (R90). -/
def driveSbox (inv : BitVec 1) (x : Byte) (s : State) : State :=
  { s with wires := { s.wires with sbox := { inv := inv, x := x, y := aesSbox inv x } } }

/-- A new level on the input of `aes_key_schedule` (R92). -/
def driveKeySchedule (key : Block) (s : State) : State :=
  { s with wires := { s.wires with
      keySchedule := { key := key, rkFlat := flattenRoundKeys (expandKey key) } } }

/-- New levels on the inputs of `subbytes_stage` (R91). -/
def driveSubBytes (inv : BitVec 1) (sIn : Block) (s : State) : State :=
  { s with wires := { s.wires with subBytes := { inv := inv, sIn := sIn, sOut := subBytesStage inv sIn } } }

/-- New levels on the inputs of `shiftrows_stage` (R91). -/
def driveShiftRows (inv : BitVec 1) (sIn : Block) (s : State) : State :=
  { s with wires := { s.wires with shiftRows := { inv := inv, sIn := sIn, sOut := shiftRowsStage inv sIn } } }

/-- New levels on the inputs of `mixcolumns_stage` (R91). -/
def driveMixColumns (inv : BitVec 1) (sIn : Block) (s : State) : State :=
  { s with wires := { s.wires with mixColumns := { inv := inv, sIn := sIn, sOut := mixColumnsStage inv sIn } } }

/-- New levels on the inputs of `addroundkey_stage` (R93). -/
def driveAddRoundKey (sIn rk : Block) (s : State) : State :=
  { s with wires := { s.wires with addRoundKey := { sIn := sIn, rk := rk, sOut := addRoundKey sIn rk } } }

end Sys2Proof.Machine
end

