-- ==== Sys2Proof/Machine/Commands.lean ====
section
/-! DEFINITION. The operations of format `CMD`, ENCRYPT and DECRYPT: what one rising edge does at which the
command is on the ports with `rst = 0` and `start = 1` (R167). Accepting starts the command; its forty steps
and its finish are the edges that follow (R176, R177), with the result of R165 or R166 (R178). -/

namespace Sys2Proof.Machine

/-- ENCRYPT, `op = 0` (R165, R174, R175, R169). -/
def execEncrypt (dataLen keyLen : BitVec 5) (block key : Block) (s : State) : Host.Outcome State Fault Refusal :=
  commandEdge 0 dataLen keyLen block key s

/-- DECRYPT, `op = 1` (R166, R174, R175, R169). -/
def execDecrypt (dataLen keyLen : BitVec 5) (block key : Block) (s : State) : Host.Outcome State Fault Refusal :=
  commandEdge 1 dataLen keyLen block key s

end Sys2Proof.Machine
end

