-- ==== Sys2Proof/Machine/FixModules.lean ====
section
/-! DEFINITION. The operations of format `FIX`: GMULT, EXPANDKEY, ADDROUNDKEY (R80). A combinational module
has no clock: its output follows its inputs, and no register of `aes_core` changes (R32, R96). -/

namespace Sys2Proof.Machine

/-- GMULT (R89, R110). -/
def execGmult (a b : Byte) (s : State) : Host.Outcome State Fault Refusal := .next (driveGfm a b s)

/-- EXPANDKEY (R92, R130). -/
def execExpandKey (key : Block) (s : State) : Host.Outcome State Fault Refusal := .next (driveKeySchedule key s)

/-- ADDROUNDKEY (R93, R160). -/
def execAddRoundKey (sIn rk : Block) (s : State) : Host.Outcome State Fault Refusal :=
  .next (driveAddRoundKey sIn rk s)

end Sys2Proof.Machine
end

