-- ==== Sys2Proof/Machine/ModeModules.lean ====
section
/-! DEFINITION. The operations of format `MODE`: each drives the mode input of its module, 0 forward and 1
inverse, with its operand (R80, R94). -/

namespace Sys2Proof.Machine

/-- SBOX (R90, R120). -/
def execSbox (x : Byte) (s : State) : Host.Outcome State Fault Refusal := .next (driveSbox 0 x s)

/-- INVSBOX (R90, R121). -/
def execInvSbox (x : Byte) (s : State) : Host.Outcome State Fault Refusal := .next (driveSbox 1 x s)

/-- SUBBYTES (R91, R140). -/
def execSubBytes (sIn : Block) (s : State) : Host.Outcome State Fault Refusal := .next (driveSubBytes 0 sIn s)

/-- INVSUBBYTES (R91, R141). -/
def execInvSubBytes (sIn : Block) (s : State) : Host.Outcome State Fault Refusal := .next (driveSubBytes 1 sIn s)

/-- SHIFTROWS (R91, R145). -/
def execShiftRows (sIn : Block) (s : State) : Host.Outcome State Fault Refusal := .next (driveShiftRows 0 sIn s)

/-- INVSHIFTROWS (R91, R146). -/
def execInvShiftRows (sIn : Block) (s : State) : Host.Outcome State Fault Refusal := .next (driveShiftRows 1 sIn s)

/-- MIXCOLUMNS (R91, R152). -/
def execMixColumns (sIn : Block) (s : State) : Host.Outcome State Fault Refusal := .next (driveMixColumns 0 sIn s)

/-- INVMIXCOLUMNS (R91, R153). -/
def execInvMixColumns (sIn : Block) (s : State) : Host.Outcome State Fault Refusal := .next (driveMixColumns 1 sIn s)

end Sys2Proof.Machine
end

