-- ==== Sys2Proof/Syntax.lean ====
section
/-! DEFINITION. The operations: one constructor for each of the thirteen rows of spec/opcode_table.json (R96). -/

namespace Sys2Proof

/-- An operation with its operands. Operations of a combinational module carry the values on its data
inputs (R89 to R93). A command carries its declared lengths beside its two operands: R165 and R166 give
`data_len` and `key_len` among its operands and check them first. -/
inductive Instr where
  /-- GMULT, the product of two bytes in GF(2^8) (R110). -/
  | gmult (a b : Byte)
  /-- SBOX, forward S-box lookup (R120). -/
  | sbox (x : Byte)
  /-- INVSBOX, inverse S-box lookup (R121). -/
  | invSbox (x : Byte)
  /-- EXPANDKEY, a key to its eleven round keys (R130). -/
  | expandKey (key : Block)
  /-- SUBBYTES (R140). -/
  | subBytes (sIn : Block)
  /-- INVSUBBYTES (R141). -/
  | invSubBytes (sIn : Block)
  /-- SHIFTROWS (R145). -/
  | shiftRows (sIn : Block)
  /-- INVSHIFTROWS (R146). -/
  | invShiftRows (sIn : Block)
  /-- MIXCOLUMNS (R152). -/
  | mixColumns (sIn : Block)
  /-- INVMIXCOLUMNS (R153). -/
  | invMixColumns (sIn : Block)
  /-- ADDROUNDKEY (R160). -/
  | addRoundKey (sIn rk : Block)
  /-- ENCRYPT, presented with its declared lengths (R165). -/
  | encrypt (dataLen keyLen : BitVec 5) (block key : Block)
  /-- DECRYPT, presented with its declared lengths (R166). -/
  | decrypt (dataLen keyLen : BitVec 5) (block key : Block)
deriving DecidableEq, Repr

end Sys2Proof
end

