-- ==== Sys2Proof/Machine/Dispatch.lean ====
section
/-! DEFINITION. exec: one arm per operation. -/

namespace Sys2Proof.Machine

def exec (i : Instr) (s : State) : Host.Outcome State Fault Refusal :=
  match i with
  | .gmult a b => Sys2Proof.Machine.execGmult a b s
  | .sbox x => Sys2Proof.Machine.execSbox x s
  | .invSbox x => Sys2Proof.Machine.execInvSbox x s
  | .expandKey key => Sys2Proof.Machine.execExpandKey key s
  | .subBytes sIn => Sys2Proof.Machine.execSubBytes sIn s
  | .invSubBytes sIn => Sys2Proof.Machine.execInvSubBytes sIn s
  | .shiftRows sIn => Sys2Proof.Machine.execShiftRows sIn s
  | .invShiftRows sIn => Sys2Proof.Machine.execInvShiftRows sIn s
  | .mixColumns sIn => Sys2Proof.Machine.execMixColumns sIn s
  | .invMixColumns sIn => Sys2Proof.Machine.execInvMixColumns sIn s
  | .addRoundKey sIn rk => Sys2Proof.Machine.execAddRoundKey sIn rk s
  | .encrypt dataLen keyLen block key => Sys2Proof.Machine.execEncrypt dataLen keyLen block key s
  | .decrypt dataLen keyLen block key => Sys2Proof.Machine.execDecrypt dataLen keyLen block key s

end Sys2Proof.Machine
end

