-- ==== Sys2Proof/WellFormed.lean ====
section
/-! DEFINITION. Which operations the encoding admits: every operand of a combinational module is legal,
and a command is legal when both declared lengths are 16 (R87, R88, R94). -/

namespace Sys2Proof

/-- "16 accepted; 0..15 and 17..31 raise InvalidLength" (R30). -/
def legalLength (len : BitVec 5) : Bool := len == Config.operandBytes

/-- The legal operations: of the commands, the two control words of R87. -/
def Instr.wellFormed : Instr → Bool
  | .gmult _ _ => true
  | .sbox _ => true
  | .invSbox _ => true
  | .expandKey _ => true
  | .subBytes _ => true
  | .invSubBytes _ => true
  | .shiftRows _ => true
  | .invShiftRows _ => true
  | .mixColumns _ => true
  | .invMixColumns _ => true
  | .addRoundKey _ _ => true
  | .encrypt dataLen keyLen _ _ => legalLength dataLen && legalLength keyLen
  | .decrypt dataLen keyLen _ _ => legalLength dataLen && legalLength keyLen

end Sys2Proof
end

