-- ==== Sys2Proof/Decode.lean ====
section
/-! DEFINITION. From the values on a module's input pins to the operation they present, or the named
reason why they present none (R83, R87, R88, R94), and the encoder back to pins. The hardware has no
instruction stream (30_encoding.md): an operation's word is what stands on the pins of its own module. -/

namespace Sys2Proof

/-- Why the pins present no operation. -/
inductive Rejection where
  /-- `rst = 1` at the edge: nothing is presented, reset wins (R173 line 1, R240). -/
  | resetAsserted
  /-- `rst = 0` and `start = 0` at the edge: no command (R173 line 2). -/
  | noCommand
  /-- `start = 1` with one of the 2046 illegal control words: InvalidLength (R88). -/
  | invalidLength
deriving DecidableEq, Repr

/-- The control word `ctrl[10:0] = op || data_len || key_len` (R86). -/
def CorePins.ctrl (p : CorePins) : BitVec 11 := p.op ++ p.dataLen ++ p.keyLen

/-- `ctrl[9:5]` (R86). -/
def ctrlDataLen (ctrl : BitVec 11) : BitVec 5 := ctrl.extractLsb' 5 5

/-- `ctrl[4:0]` (R86). -/
def ctrlKeyLen (ctrl : BitVec 11) : BitVec 5 := ctrl.extractLsb' 0 5

/-- Command decode by the match and mask of R87; every other word is illegal (R88). -/
def decodeCommand (ctrl : BitVec 11) (block key : Block) : Except Rejection Instr :=
  if ctrl &&& 0x7FF = 0x210 then .ok (.encrypt (ctrlDataLen ctrl) (ctrlKeyLen ctrl) block key)
  else if ctrl &&& 0x7FF = 0x610 then .ok (.decrypt (ctrlDataLen ctrl) (ctrlKeyLen ctrl) block key)
  else .error .invalidLength

/-- The mode input: 0 selects the forward operation, 1 the inverse (R94). -/
def decodeMode (inv : BitVec 1) (forward inverse : Instr) : Instr :=
  if inv &&& 1 = 0 then forward else inverse

/-- The command on the pins of `aes_core` at an edge, in the order in which R83 looks at them. -/
def decodeCore (p : CorePins) : Except Rejection Instr :=
  if p.rst then .error .resetAsserted
  else if p.start then decodeCommand p.ctrl p.blockIn p.keyIn
  else .error .noCommand

/-- The operation that the pins of a module present. -/
def decode : Pins → Except Rejection Instr
  | .core p => decodeCore p
  | .gfm a b => .ok (.gmult a b)
  | .sbox inv x => .ok (decodeMode inv (.sbox x) (.invSbox x))
  | .keySchedule key => .ok (.expandKey key)
  | .subBytes inv sIn => .ok (decodeMode inv (.subBytes sIn) (.invSubBytes sIn))
  | .shiftRows inv sIn => .ok (decodeMode inv (.shiftRows sIn) (.invShiftRows sIn))
  | .mixColumns inv sIn => .ok (decodeMode inv (.mixColumns sIn) (.invMixColumns sIn))
  | .addRoundKey sIn rk => .ok (.addRoundKey sIn rk)

/-- The pins of `aes_core` at an edge at which a command is presented (R167). -/
def presentPins (op : BitVec 1) (dataLen keyLen : BitVec 5) (block key : Block) : Pins :=
  .core { rst := false, start := true, op := op, dataLen := dataLen, keyLen := keyLen,
          blockIn := block, keyIn := key }

/-- The pins that present an operation (R87, R89 to R94). -/
def encode : Instr → Pins
  | .gmult a b => .gfm a b
  | .sbox x => .sbox 0 x
  | .invSbox x => .sbox 1 x
  | .expandKey key => .keySchedule key
  | .subBytes sIn => .subBytes 0 sIn
  | .invSubBytes sIn => .subBytes 1 sIn
  | .shiftRows sIn => .shiftRows 0 sIn
  | .invShiftRows sIn => .shiftRows 1 sIn
  | .mixColumns sIn => .mixColumns 0 sIn
  | .invMixColumns sIn => .mixColumns 1 sIn
  | .addRoundKey sIn rk => .addRoundKey sIn rk
  | .encrypt dataLen keyLen block key => presentPins 0 dataLen keyLen block key
  | .decrypt dataLen keyLen block key => presentPins 1 dataLen keyLen block key

/-- The selecting bits among the pins, numbered as spec/opcode_table.json numbers them: `ctrl` for
`CMD`, `inv` for `MODE`, none for `FIX` (R80). -/
def Pins.selectingBits : Pins → Nat
  | .core p          => p.ctrl.toNat
  | .gfm _ _         => 0
  | .sbox inv _      => inv.toNat
  | .keySchedule _   => 0
  | .subBytes inv _  => inv.toNat
  | .shiftRows inv _ => inv.toNat
  | .mixColumns inv _ => inv.toNat
  | .addRoundKey _ _ => 0

/-- One row of spec/opcode_table.json: the module, and the match and mask of its selecting bits. -/
structure TableRow where
  module : Module
  mask   : Nat
  value  : Nat
deriving DecidableEq, Repr

/-- The row of each operation (R87, R96). -/
def tableRow : Instr → TableRow
  | .gmult _ _ => ⟨.galoisFieldMult, 0x0, 0x0⟩
  | .sbox _ => ⟨.aesSbox, 0x1, 0x0⟩
  | .invSbox _ => ⟨.aesSbox, 0x1, 0x1⟩
  | .expandKey _ => ⟨.aesKeySchedule, 0x0, 0x0⟩
  | .subBytes _ => ⟨.subBytesStage, 0x1, 0x0⟩
  | .invSubBytes _ => ⟨.subBytesStage, 0x1, 0x1⟩
  | .shiftRows _ => ⟨.shiftRowsStage, 0x1, 0x0⟩
  | .invShiftRows _ => ⟨.shiftRowsStage, 0x1, 0x1⟩
  | .mixColumns _ => ⟨.mixColumnsStage, 0x1, 0x0⟩
  | .invMixColumns _ => ⟨.mixColumnsStage, 0x1, 0x1⟩
  | .addRoundKey _ _ => ⟨.addRoundKeyStage, 0x0, 0x0⟩
  | .encrypt _ _ _ _ => ⟨.aesCore, 0x7FF, 0x210⟩
  | .decrypt _ _ _ _ => ⟨.aesCore, 0x7FF, 0x610⟩

/-- The pins a word of spec/opcode_table.json stands for, its operand bits zero. The table's words do not
say which module's pins they stand on, and seven modules share the words 0 and 1: by the word's length,
one of 16 bits is a control word of `aes_core`, one of 8 bits the mode input of `aes_sbox` (the table's
first `MODE` module) and one of none the pins of `galois_field_mult` (its first `FIX` module).
DESIGN CHOICE (notes/assumptions/6.md). A bit that is no wire of the module cannot be set. -/
def pinsOfTableWord (nbits w : Nat) : Option Pins :=
  if nbits = 0 then (if w = 0 then some (.gfm 0 0) else none)
  else if nbits ≤ 8 then (if w < 2 then some (.sbox (BitVec.ofNat 1 w) 0) else none)
  else if w < 2048 then
    some (presentPins (BitVec.extractLsb' 10 1 (BitVec.ofNat 11 w))
      (ctrlDataLen (BitVec.ofNat 11 w)) (ctrlKeyLen (BitVec.ofNat 11 w)) 0 0)
  else none

/-- The operation the decoder reads from a word numbered as spec/opcode_table.json numbers it. -/
def decodeTableWord (nbits w : Nat) : Option Instr :=
  match pinsOfTableWord nbits w with
  | none => none
  | some p =>
    match decode p with
    | .ok i => some i
    | .error _ => none

end Sys2Proof
end

