-- ==== Sys2Proof/Machine/Fetch.lean ====
section
/-! DEFINITION. What stands on the pins next: the host's oldest action (R13). -/

namespace Sys2Proof.Machine

/-- A rising edge at which the host asks nothing: `rst = 0` and `start = 0`, the other inputs low. DESIGN
CHOICE (notes/assumptions/2.md): their levels have no effect (R83). -/
def quietPins : Pins :=
  .core { rst := false, start := false, op := 0, dataLen := 0, keyLen := 0, blockIn := 0, keyIn := 0 }

/-- The pins of the coming event and the actions left after it. WAIT stays in front, with quiet pins, while
`busy = 1`, and is passed over otherwise (R97). A host with nothing left to do leaves the pins quiet
(notes/assumptions/2.md). -/
def nextPins (busy : Bool) : List HostAction → Pins × List HostAction
  | [] => (quietPins, [])
  | .drive p :: rest => (p, rest)
  | .wait :: rest => if busy then (quietPins, .wait :: rest) else nextPins busy rest

/-- The pins of the coming event, and the state with that event taken from the host's list. -/
def fetch (s : State) : Pins × State :=
  let (p, rest) := nextPins s.core.busy s.host
  (p, { s with host := rest })

/-- The host puts one more event before what it has to do. -/
def State.drive (s : State) (p : Pins) : State := { s with host := .drive p :: s.host }

end Sys2Proof.Machine
end

