-- ==== Sys2Proof/Machine/Step.lean ====
section
/-! DEFINITION. One step: the coming event on the pins, decoded and run. An event on the pins of `aes_core`
is one rising edge of `clk` (R82, R173); an event on a combinational module's pins is no clock edge. -/

namespace Sys2Proof.Machine

/-- One step of the machine. -/
def step (s : State) : Host.Outcome State Fault Refusal :=
  match decode (fetch s).1 with
  | .ok i => exec i (fetch s).2
  | .error .resetAsserted => resetEdge (fetch s).2
  | .error .noCommand => quietEdge (fetch s).2
  | .error .invalidLength => rejectEdge (fetch s).2

/-- The host's next event is the pins that the table word stands for; nothing else changes. A word that sets
a bit that is no wire cannot be put on any pins. -/
def State.withFetchWord (s : State) (nbits w : Nat) : State :=
  match pinsOfTableWord nbits w with
  | some p => s.drive p
  | none => s

/-- `n` steps, up to the first fault or refusal. -/
def runSteps : Nat → State → Host.Outcome State Fault Refusal
  | 0, s => .next s
  | n + 1, s =>
    match step s with
    | .next s' => runSteps n s'
    | .fault r => .fault r
    | .refused r => .refused r

end Sys2Proof.Machine
end

