-- ==== Sys2Proof/Safety.lean ====
section
/-! DEFINITION. What a safe state and a safe run are, in the terms the statements use. -/

namespace Sys2Proof.Machine

/-- R34 (1): "`fsm = IDLE` implies `state = 0`, `seq = 0` and `rks[r] = 0` for all r". -/
abbrev CoreRegs.IdleIsClear (c : CoreRegs) : Prop :=
  c.fsm = .idle → c.state = 0 ∧ c.seq = 0 ∧ ∀ r : Fin 11, c.rks[r] = 0

/-- R34 (2): "`fsm = RUN` implies `done = 0`, `err = 0`, `block_out = 0` and `0 <= seq <= 40`". -/
abbrev CoreRegs.RunHasNoResponse (c : CoreRegs) : Prop :=
  c.fsm = .run → c.done = false ∧ c.err = false ∧ c.blockOut = 0 ∧ c.seq.toNat ≤ 40

/-- R34 (3): "`done = 0` implies `block_out = 0`". -/
abbrev CoreRegs.NoResultWithoutDone (c : CoreRegs) : Prop := c.done = false → c.blockOut = 0

/-- R34 (4): "`done` and `err` are never both 1; `done = 1` or `err = 1` implies `fsm = IDLE`". -/
abbrev CoreRegs.ResponsesExclude (c : CoreRegs) : Prop :=
  ¬ (c.done = true ∧ c.err = true) ∧ (c.done = true ∨ c.err = true → c.fsm = .idle)

/-- Items 1 to 4 of R34, which "a model may use ... as well-formedness of the machine state". -/
abbrev CoreRegs.WellFormed (c : CoreRegs) : Prop :=
  c.IdleIsClear ∧ c.RunHasNoResponse ∧ c.NoResultWithoutDone ∧ c.ResponsesExclude

/-- The State after the first `n` micro-operations on `block` (R34 item 5). -/
def stateAfter (op : BitVec 1) (n : Nat) (block : Block) (rks : RoundKeys) : Block :=
  ((microSequence op).toList.take n).foldl (fun S u => applyMicroOp u S rks) block

/-- The State after the `k` micro-operations from place `n` on, or after all that are left where fewer are. -/
def stateAfterNext (op : BitVec 1) (n k : Nat) (S : Block) (rks : RoundKeys) : Block :=
  (((microSequence op).toList.drop n).take k).foldl (fun S u => applyMicroOp u S rks) S

/-- R34 (5), for one accepted command: the registers of a command with operands `block` and `key`. -/
def CoreRegs.Runs (c : CoreRegs) (block key : Block) : Prop :=
  c.rks = expandKey key ∧ c.state = stateAfter c.opQ c.seq.toNat block (expandKey key)

/-- R34 (5): a running core holds the schedule and the State of some accepted command. -/
def CoreRegs.TracksItsCommand (c : CoreRegs) : Prop :=
  c.fsm = .run → ∃ block key : Block, c.Runs block key

/-- Each output wire is its module's function of the inputs beside it (R32, R89 to R93). -/
abbrev ModuleWires.Settled (w : ModuleWires) : Prop :=
  w.gfm.p = gmult w.gfm.a w.gfm.b ∧
  w.sbox.y = aesSbox w.sbox.inv w.sbox.x ∧
  (∀ r : Fin 11, roundKeyOfFlat w.keySchedule.rkFlat r = (expandKey w.keySchedule.key)[r]) ∧
  w.subBytes.sOut = subBytesStage w.subBytes.inv w.subBytes.sIn ∧
  w.shiftRows.sOut = shiftRowsStage w.shiftRows.inv w.shiftRows.sIn ∧
  w.mixColumns.sOut = mixColumnsStage w.mixColumns.inv w.mixColumns.sIn ∧
  w.addRoundKey.sOut = Machine.addRoundKey w.addRoundKey.sIn w.addRoundKey.rk

/-- "`rst` stays 0": none of the host's actions asserts reset (R178, R242). -/
def NeverResets (host : List HostAction) : Prop :=
  ∀ p : CorePins, HostAction.drive (.core p) ∈ host → p.rst = false

/-- The state from which a run begins: right after reset, with a host program and paces of any kind. -/
def startState (host : List HostAction) (pace : List Nat) : State :=
  { State.reset with host := host, pace := pace }

/-- A state that some run from reset reaches (R233: claims are about runs that begin with a reset). -/
def Reachable (s : State) : Prop :=
  ∃ (host : List HostAction) (pace : List Nat) (n : Nat), runSteps n (startState host pace) = .next s

end Sys2Proof.Machine
end

