-- ==== Sys2Proof/Certificates/Slice0/Obligations.lean ====
section
/-! DEFINITION. The statements for the provers, from the numbered rules of spec/. -/

open Sys2Proof Sys2Proof.Machine

/-! ## Encodings -/

/-- Pins and legal operations correspond one to one: an operation is legal exactly when the decoder reads it
back from the pins that present it, and pins that present an operation are the ones its encoder gives (R83, R87
to R94). -/
def Obligations.DecodeAndEncodeAgree : Prop :=
  (∀ i : Instr, i.wellFormed = true ↔ decode (encode i) = .ok i) ∧
  (∀ (p : Pins) (i : Instr), decode p = .ok i → i.wellFormed = true ∧ encode i = p)

/-- R87: at an edge with `rst = 0` and `start = 1`, of the 2048 control words 0x210 is ENCRYPT, 0x610 is
DECRYPT, and no other word selects an operation. -/
def Obligations.ExactlyTwoControlWordsSelectAnOperation : Prop :=
  (∀ p : CorePins, p.rst = false → p.start = true →
    (p.ctrl &&& 0x7FF = 0x210 → decode (.core p) = .ok (.encrypt 16 16 p.blockIn p.keyIn)) ∧
    (p.ctrl &&& 0x7FF = 0x610 → decode (.core p) = .ok (.decrypt 16 16 p.blockIn p.keyIn)) ∧
    (p.ctrl ≠ 0x210 → p.ctrl ≠ 0x610 → ∀ i, decode (.core p) ≠ .ok i)) ∧
  (0x210 : BitVec 11) = (0 : BitVec 1) ++ (16 : BitVec 5) ++ (16 : BitVec 5) ∧
  (0x610 : BitVec 11) = (1 : BitVec 1) ++ (16 : BitVec 5) ++ (16 : BitVec 5)

/-- R94: `inv` 0 selects the forward and 1 the inverse operation, for each of the four `MODE` modules; both
values are legal. -/
def Obligations.ModeInputSelectsDirection : Prop :=
  ∀ (inv : BitVec 1) (x : Byte) (sIn : Block),
    (inv = 0 ∨ inv = 1) ∧
    decode (.sbox inv x) = .ok (if inv = 0 then .sbox x else .invSbox x) ∧
    decode (.subBytes inv sIn) = .ok (if inv = 0 then .subBytes sIn else .invSubBytes sIn) ∧
    decode (.shiftRows inv sIn) = .ok (if inv = 0 then .shiftRows sIn else .invShiftRows sIn) ∧
    decode (.mixColumns inv sIn) = .ok (if inv = 0 then .mixColumns sIn else .invMixColumns sIn)

/-- A few words written out bit by bit from R86, R87 and R94 decode to what they stand for. That a table word of
16 bits stands on the pins of `aes_core` is the model's choice (notes/assumptions/6.md). -/
def Obligations.WrittenWordsDecode : Prop :=
  decodeTableWord 16 0b01000010000 = some (.encrypt 16 16 0 0) ∧
  decodeTableWord 16 0b11000010000 = some (.decrypt 16 16 0 0) ∧
  decodeTableWord 16 0b00111110000 = none ∧
  decode (.subBytes 0b0 0) = .ok (.subBytes 0) ∧
  decode (.subBytes 0b1 0) = .ok (.invSubBytes 0)

/-! ## galois_field_mult -/

/-- R89: with `a` and `b` on the inputs of `galois_field_mult` its output is `gmult(a, b)`; nothing else
changes. -/
def Obligations.GmultDrivesItsProduct : Prop :=
  ∀ (a b : Byte) (s : State),
    exec (.gmult a b) s = .next { s with wires := { s.wires with gfm := { a := a, b := b, p := gmult a b } } }

/-- "computes multiplication of two elements of GF(2^8) under the reducing polynomial x^8+x^4+x^3+x+1" (R110):
read as polynomials over GF(2), bit `i` the coefficient of `x^i`, the result is the remainder of the product. -/
def Obligations.GmultIsTheFieldProduct : Prop :=
  ∀ a b : Byte,
    let poly : Byte → Polynomial (ZMod 2) := fun c =>
      ∑ i ∈ Finset.range 8, if c.getLsbD i then (Polynomial.X : Polynomial (ZMod 2)) ^ i else 0
    poly (gmult a b) =
      (poly a * poly b) %ₘ (Polynomial.X ^ 8 + Polynomial.X ^ 4 + Polynomial.X ^ 3 + Polynomial.X + 1)

/-- The properties of GMULT in R111, which the spec derives from R110. -/
def Obligations.GmultFieldLaws : Prop :=
  (∀ a b : Byte, gmult a b = gmult b a) ∧
  (∀ a b c : Byte, gmult a (b ^^^ c) = gmult a b ^^^ gmult a c) ∧
  (∀ a b c : Byte, gmult (gmult a b) c = gmult a (gmult b c)) ∧
  (∀ b : Byte, gmult 1 b = b ∧ gmult 0 b = 0) ∧
  (∀ a b : Byte, gmult a b = 0 → a = 0 ∨ b = 0) ∧
  (∀ b : Byte, gmult 2 b = (b <<< 1) ^^^ (if b.getLsbD 7 then 0x1B else 0x00)) ∧
  (∀ b : Byte, gmult 3 b = gmult 2 b ^^^ b)

/-! ## aes_sbox -/

/-- R90: `aes_sbox` gives `SBOX[x]` with `inv = 0` and `INVSBOX[x]` with `inv = 1`; nothing else changes. -/
def Obligations.SboxDrivesItsTableEntry : Prop :=
  ∀ (x : Byte) (s : State),
    exec (.sbox x) s =
      .next { s with wires := { s.wires with sbox := { inv := 0, x := x, y := tableEntry SBOX x } } } ∧
    exec (.invSbox x) s =
      .next { s with wires := { s.wires with sbox := { inv := 1, x := x, y := tableEntry INVSBOX x } } }

/-- The two tables are permutations of the bytes, inverse to each other, without a fixed point, and 0x52 is the
only index that SBOX maps to 0 (R120, R121 and R126, which the spec derives from its tables). -/
def Obligations.SboxTablesAreInversePermutations : Prop :=
  (∀ x : Byte, invSbox (sbox x) = x ∧ sbox (invSbox x) = x) ∧
  Function.Bijective sbox ∧ Function.Bijective invSbox ∧
  (∀ x : Byte, sbox x ≠ x ∧ invSbox x ≠ x ∧ (sbox x = 0 ↔ x = 0x52))

/-- SBOX is the affine map of the multiplicative inverse in GF(2^8), with `inv(0) = 0`: the construction of
R124, which the spec marks as from general knowledge and as a lemma about its tables. -/
def Obligations.SboxIsTheAffineInverse : Prop :=
  (∀ x : Byte, x ≠ 0 → ∃! v : Byte, gmult x v = 1) ∧
  (∀ x v : Byte, (x = 0 ∧ v = 0) ∨ (x ≠ 0 ∧ gmult x v = 1) →
    sbox x = v ^^^ v.rotateLeft 1 ^^^ v.rotateLeft 2 ^^^ v.rotateLeft 3 ^^^ v.rotateLeft 4 ^^^ 0x63)

/-! ## aes_key_schedule -/

/-- The ten round constants, each the double of the one before (R125; the doubling is the spec's derivation). -/
def Obligations.RoundConstantsDouble : Prop :=
  RCON = #v[0x01, 0x02, 0x04, 0x08, 0x10, 0x20, 0x40, 0x80, 0x1B, 0x36] ∧
  RCON[0] = 0x01 ∧ ∀ i : Fin 9, RCON[i.val + 1] = gmult RCON[i.val] 0x02

/-- R92: `aes_key_schedule` gives the eleven round keys of its key, round 0 most significant on `rk_flat`;
nothing else changes. -/
def Obligations.ExpandKeyDrivesTheRoundKeys : Prop :=
  ∀ (key : Block) (s : State), ∃ t : State,
    exec (.expandKey key) s = .next t ∧
    t.wires.keySchedule.key = key ∧
    (∀ r : Fin 11, t.wires.keySchedule.rkFlat.extractLsb' (1280 - 128 * r.val) 128 = (expandKey key)[r]) ∧
    t = { s with wires := { s.wires with keySchedule := t.wires.keySchedule } }

/-- The first four words are the columns of the key; each later word is the XOR of the word four before with the
word before, which at every fourth index is first rotated, then substituted, then XORed with the round constant
in its first byte only (R133). That the two helpers commute is the spec's derivation (R133). -/
def Obligations.KeyScheduleWordRecurrence : Prop :=
  (∀ (key : Block) (i : Nat) (h : i < 4), (keyWords key)[i] = colWord key ⟨i, h⟩) ∧
  (∀ (key : Block) (i : Nat) (h4 : 4 ≤ i) (h : i < 44),
    (keyWords key)[i] = (keyWords key)[i - 4] ^^^
      (if i % 4 = 0 then
        wordOf (wordByte (subWord (rotWord (keyWords key)[i - 1])) 0 ^^^ RCON[i / 4 - 1])
          (wordByte (subWord (rotWord (keyWords key)[i - 1])) 1)
          (wordByte (subWord (rotWord (keyWords key)[i - 1])) 2)
          (wordByte (subWord (rotWord (keyWords key)[i - 1])) 3)
      else (keyWords key)[i - 1])) ∧
  (∀ t : Word, rotWord (subWord t) = subWord (rotWord t)) ∧
  (keyWords 0x2b7e151628aed2a6abf7158809cf4f3c)[4] = 0xa0fafe17

/-- R131 and R132: what RotWord and SubWord make of the bytes of a word. -/
def Obligations.RotWordAndSubWordBytes : Prop :=
  (∀ b0 b1 b2 b3 : Byte,
    rotWord (wordOf b0 b1 b2 b3) = wordOf b1 b2 b3 b0 ∧
    subWord (wordOf b0 b1 b2 b3) = wordOf (sbox b0) (sbox b1) (sbox b2) (sbox b3)) ∧
  (∀ t : Word, rotWord t = t.extractLsb' 0 24 ++ t.extractLsb' 24 8) ∧
  rotWord 0x09cf4f3c = 0xcf4f3c09 ∧ subWord 0xcf4f3c09 = 0x8a84eb01

/-- Round key `r` has the words `4r .. 4r+3` as its columns and is their plain concatenation; `rk_flat` is the
concatenation of all the words (R134). Round key 0 is the key itself (R135, the spec's derivation). -/
def Obligations.RoundKeysGroupTheWords : Prop :=
  ∀ key : Block,
    (∀ (r : Fin 11) (j c : Fin 4),
      cellOf (expandKey key)[r] j c = wordByte (keyWords key)[4 * r.val + c.val] j) ∧
    (∀ r : Fin 11, (expandKey key)[r] =
      (keyWords key)[4 * r.val] ++ (keyWords key)[4 * r.val + 1] ++ (keyWords key)[4 * r.val + 2] ++
        (keyWords key)[4 * r.val + 3]) ∧
    (∀ i : Fin 44, (flattenRoundKeys (expandKey key)).extractLsb' (1376 - 32 * i.val) 32 = (keyWords key)[i]) ∧
    (expandKey key)[0] = key

/-! ## Layout -/

/-- The bytes, the cells, the column words and the rows of a 128-bit value agree (R7, R8, and R52, which the
spec derives from them). -/
def Obligations.OperandViewsAgree : Prop :=
  ∀ B : Block,
    (∀ i : Fin 16, byteOf B i = B.extractLsb' (120 - 8 * i.val) 8) ∧
    (∀ r c : Fin 4, cellOf B r c = byteOf B ⟨r.val + 4 * c.val, by omega⟩) ∧
    blockOfBytes (byteOf B) = B ∧
    blockOfWords (colWord B 0) (colWord B 1) (colWord B 2) (colWord B 3) = B ∧
    (∀ c : Fin 4, colWord B c = wordOf (cellOf B 0 c) (cellOf B 1 c) (cellOf B 2 c) (cellOf B 3 c)) ∧
    (∀ r c : Fin 4, (rowOf B r)[c] = cellOf B r c)

/-! ## The stages -/

/-- R140: SUBBYTES replaces each byte by its SBOX entry; nothing but the wires of `subbytes_stage` changes. -/
def Obligations.SubBytesSubstitutesEachByte : Prop :=
  (∀ (sIn : Block) (s : State), ∃ t : State,
    exec (.subBytes sIn) s = .next t ∧
    (∀ i : Fin 16, byteOf t.wires.subBytes.sOut i = tableEntry SBOX (byteOf sIn i)) ∧
    t.wires.subBytes.inv = 0 ∧ t.wires.subBytes.sIn = sIn ∧ t.wires.subBytes.sOut ≠ sIn ∧
    t = { s with wires := { s.wires with subBytes := t.wires.subBytes } }) ∧
  subBytes 0 = 0x63636363636363636363636363636363 ∧
  subBytes 0x193de3bea0f4e22b9ac68d2ae9f84808 = 0xd42711aee0bf98f1b8b45de51e415230

/-- R141: INVSUBBYTES replaces each byte by its INVSBOX entry; nothing but the wires of `subbytes_stage`
changes. -/
def Obligations.InvSubBytesSubstitutesEachByte : Prop :=
  (∀ (sIn : Block) (s : State), ∃ t : State,
    exec (.invSubBytes sIn) s = .next t ∧
    (∀ i : Fin 16, byteOf t.wires.subBytes.sOut i = tableEntry INVSBOX (byteOf sIn i)) ∧
    t.wires.subBytes.inv = 1 ∧ t.wires.subBytes.sIn = sIn ∧
    t = { s with wires := { s.wires with subBytes := t.wires.subBytes } }) ∧
  invSubBytes 0 = 0x52525252525252525252525252525252 ∧
  invSubBytes 0x63636363636363636363636363636363 = 0 ∧
  invSubBytes 0xd42711aee0bf98f1b8b45de51e415230 = 0x193de3bea0f4e22b9ac68d2ae9f84808

/-- SHIFTROWS rotates row `r` left by `r` (R145). That output byte `i` is input byte `5i mod 16` is the spec's
derivation from the cell formula (R145). -/
def Obligations.ShiftRowsRotatesRowsLeft : Prop :=
  (∀ (sIn : Block) (s : State), ∃ t : State,
    exec (.shiftRows sIn) s = .next t ∧
    (∀ r c : Fin 4, cellOf t.wires.shiftRows.sOut r c = cellOf sIn r ⟨(c.val + r.val) % 4, by omega⟩) ∧
    (∀ i : Fin 16, byteOf t.wires.shiftRows.sOut i = byteOf sIn ⟨(5 * i.val) % 16, by omega⟩) ∧
    (∀ c : Fin 4, cellOf t.wires.shiftRows.sOut 0 c = cellOf sIn 0 c) ∧
    ((∀ r c d : Fin 4, cellOf sIn r c = cellOf sIn r d) → t.wires.shiftRows.sOut = sIn) ∧
    t.wires.shiftRows.inv = 0 ∧ t.wires.shiftRows.sIn = sIn ∧
    t = { s with wires := { s.wires with shiftRows := t.wires.shiftRows } }) ∧
  shiftRows 0x000102030405060708090a0b0c0d0e0f = 0x00050a0f04090e03080d02070c01060b ∧
  shiftRows 0xd42711aee0bf98f1b8b45de51e415230 = 0xd4bf5d30e0b452aeb84111f11e2798e5

/-- INVSHIFTROWS rotates row `r` right by `r` (R146). That output byte `i` is input byte `13i mod 16` is the
spec's derivation from the cell formula (R146). -/
def Obligations.InvShiftRowsRotatesRowsRight : Prop :=
  (∀ (sIn : Block) (s : State), ∃ t : State,
    exec (.invShiftRows sIn) s = .next t ∧
    (∀ r c : Fin 4, cellOf t.wires.shiftRows.sOut r c = cellOf sIn r ⟨(c.val + 4 - r.val) % 4, by omega⟩) ∧
    (∀ i : Fin 16, byteOf t.wires.shiftRows.sOut i = byteOf sIn ⟨(13 * i.val) % 16, by omega⟩) ∧
    (∀ c : Fin 4, cellOf t.wires.shiftRows.sOut 0 c = cellOf sIn 0 c) ∧
    (∀ c : Fin 4, cellOf t.wires.shiftRows.sOut 2 c = cellOf (shiftRows sIn) 2 c) ∧
    ((∀ r c d : Fin 4, cellOf sIn r c = cellOf sIn r d) → t.wires.shiftRows.sOut = sIn) ∧
    t.wires.shiftRows.inv = 1 ∧ t.wires.shiftRows.sIn = sIn ∧
    t = { s with wires := { s.wires with shiftRows := t.wires.shiftRows } }) ∧
  invShiftRows 0x000102030405060708090a0b0c0d0e0f = 0x000d0a0704010e0b0805020f0c090603

/-- MIXCOLUMNS replaces each column by its product with MIX (R152). The four sums written out with `xt(v) =
gmult(02, v)`, and that a column of equal bytes is unchanged, are the spec's derivation (R152). -/
def Obligations.MixColumnsMultipliesEachColumn : Prop :=
  (∀ (sIn : Block) (s : State), ∃ t : State,
    exec (.mixColumns sIn) s = .next t ∧
    (∀ c : Fin 4,
      let b0 := cellOf sIn 0 c
      let b1 := cellOf sIn 1 c
      let b2 := cellOf sIn 2 c
      let b3 := cellOf sIn 3 c
      let xt : Byte → Byte := fun v => gmult 0x02 v
      columnOf t.wires.mixColumns.sOut c = xorDot MIX #v[b0, b1, b2, b3] ∧
      columnOf t.wires.mixColumns.sOut c =
        #v[xt b0 ^^^ (xt b1 ^^^ b1) ^^^ b2 ^^^ b3, b0 ^^^ xt b1 ^^^ (xt b2 ^^^ b2) ^^^ b3,
           b0 ^^^ b1 ^^^ xt b2 ^^^ (xt b3 ^^^ b3), (xt b0 ^^^ b0) ^^^ b1 ^^^ b2 ^^^ xt b3] ∧
      (b0 = b1 → b1 = b2 → b2 = b3 → columnOf t.wires.mixColumns.sOut c = #v[b0, b0, b0, b0])) ∧
    t.wires.mixColumns.inv = 0 ∧ t.wires.mixColumns.sIn = sIn ∧
    t = { s with wires := { s.wires with mixColumns := t.wires.mixColumns } }) ∧
  mixColumns 0 = 0 ∧
  mixColumns 0x01000000000000000000000000000000 = 0x02010103000000000000000000000000 ∧
  mixColumns 0xd4bf5d30e0b452aeb84111f11e2798e5 = 0x046681e5e0cb199a48f8d37a2806264c

/-- R153: INVMIXCOLUMNS replaces each column by its product with INVMIX. -/
def Obligations.InvMixColumnsMultipliesEachColumn : Prop :=
  (∀ (sIn : Block) (s : State), ∃ t : State,
    exec (.invMixColumns sIn) s = .next t ∧
    (∀ c : Fin 4,
      let b0 := cellOf sIn 0 c
      let b1 := cellOf sIn 1 c
      let b2 := cellOf sIn 2 c
      let b3 := cellOf sIn 3 c
      columnOf t.wires.mixColumns.sOut c = xorDot INVMIX #v[b0, b1, b2, b3] ∧
      columnOf t.wires.mixColumns.sOut c =
        #v[gmult 0x0e b0 ^^^ gmult 0x0b b1 ^^^ gmult 0x0d b2 ^^^ gmult 0x09 b3,
           gmult 0x09 b0 ^^^ gmult 0x0e b1 ^^^ gmult 0x0b b2 ^^^ gmult 0x0d b3,
           gmult 0x0d b0 ^^^ gmult 0x09 b1 ^^^ gmult 0x0e b2 ^^^ gmult 0x0b b3,
           gmult 0x0b b0 ^^^ gmult 0x0d b1 ^^^ gmult 0x09 b2 ^^^ gmult 0x0e b3] ∧
      (b0 = b1 → b1 = b2 → b2 = b3 → columnOf t.wires.mixColumns.sOut c = #v[b0, b0, b0, b0])) ∧
    t.wires.mixColumns.inv = 1 ∧ t.wires.mixColumns.sIn = sIn ∧
    t = { s with wires := { s.wires with mixColumns := t.wires.mixColumns } }) ∧
  invMixColumns 0 = 0 ∧
  invMixColumns 0x01000000000000000000000000000000 = 0x0e090d0b000000000000000000000000 ∧
  columnOf (invMixColumns 0x046681e5000000000000000000000000) 0 = #v[0xd4, 0xbf, 0x5d, 0x30]

/-- R150 and R151 (the product is the spec's derivation): both matrices are circulant from their first rows,
each row rotated right, and their product over GF(2^8) is the identity. -/
def Obligations.MixMatricesAreCirculantInverses : Prop :=
  MIX[0] = #v[0x02, 0x03, 0x01, 0x01] ∧ INVMIX[0] = #v[0x0e, 0x0b, 0x0d, 0x09] ∧
  (∀ i k : Fin 4, MIX[i][k] = MIX[0][k - i] ∧ INVMIX[i][k] = INVMIX[0][k - i]) ∧
  (∀ i j : Fin 4,
    gmult INVMIX[i][0] MIX[0][j] ^^^ gmult INVMIX[i][1] MIX[1][j] ^^^ gmult INVMIX[i][2] MIX[2][j] ^^^
      gmult INVMIX[i][3] MIX[3][j] = if i = j then 1 else 0)

/-- R160: ADDROUNDKEY is the XOR of the state and the round key, bus value by bus value and cell by cell;
nothing but the wires of `addroundkey_stage` changes. -/
def Obligations.AddRoundKeyXorsTheRoundKey : Prop :=
  (∀ (sIn rk : Block) (s : State), ∃ t : State,
    exec (.addRoundKey sIn rk) s = .next t ∧
    t.wires.addRoundKey.sOut = sIn ^^^ rk ∧
    (∀ i : Fin 16, byteOf t.wires.addRoundKey.sOut i = byteOf sIn i ^^^ byteOf rk i) ∧
    (∀ r c : Fin 4, cellOf t.wires.addRoundKey.sOut r c = cellOf sIn r c ^^^ cellOf rk r c) ∧
    (rk = 0 → t.wires.addRoundKey.sOut = sIn) ∧ (rk = sIn → t.wires.addRoundKey.sOut = 0) ∧
    t.wires.addRoundKey.sIn = sIn ∧ t.wires.addRoundKey.rk = rk ∧
    t = { s with wires := { s.wires with addRoundKey := t.wires.addRoundKey } }) ∧
  addRoundKey 0x3243f6a8885a308d313198a2e0370734 0x2b7e151628aed2a6abf7158809cf4f3c =
    0x193de3bea0f4e22b9ac68d2ae9f84808

/-- SubBytes and InvSubBytes undo each other, and each commutes with the row shift of its direction (R142, in
part the spec's derivation). -/
def Obligations.SubBytesInversePair : Prop :=
  ∀ S : Block,
    invSubBytes (subBytes S) = S ∧ subBytes (invSubBytes S) = S ∧
    subBytes (shiftRows S) = shiftRows (subBytes S) ∧
    invSubBytes (invShiftRows S) = invShiftRows (invSubBytes S)

/-- ShiftRows and InvShiftRows undo each other (R147, in part the spec's derivation). -/
def Obligations.ShiftRowsInversePair : Prop :=
  ∀ S : Block, invShiftRows (shiftRows S) = S ∧ shiftRows (invShiftRows S) = S

/-- MixColumns and InvMixColumns undo each other (R154, in part the spec's derivation from R151). -/
def Obligations.MixColumnsInversePair : Prop :=
  ∀ S : Block, invMixColumns (mixColumns S) = S ∧ mixColumns (invMixColumns S) = S

/-- AddRoundKey with one round key undoes itself, and is commutative (R161, in part the spec's derivation). -/
def Obligations.AddRoundKeySelfInverse : Prop :=
  ∀ S K : Block, addRoundKey (addRoundKey S K) K = S ∧ addRoundKey S K = addRoundKey K S

/-! ## The micro-sequences and the cipher -/

/-- The closed form of UENC (R170, which the spec derives from R165). -/
def Obligations.EncryptSequenceClosedForm : Prop :=
  UENC[0] = .ark 0 ∧
  (∀ r : Fin 11, (h : 1 ≤ r.val ∧ r.val ≤ 9) →
    UENC[4 * r.val - 3] = .sb ∧ UENC[4 * r.val - 2] = .sr ∧ UENC[4 * r.val - 1] = .mc ∧
    UENC[4 * r.val] = .ark r) ∧
  UENC[37] = .sb ∧ UENC[38] = .sr ∧ UENC[39] = .ark 10

/-- The closed form of UDEC, and each of its entries undoing the entry of UENC at the mirrored place (R171,
which the spec derives from R166). -/
def Obligations.DecryptSequenceMirrorsEncrypt : Prop :=
  (UDEC[0] = .ark 10 ∧ UDEC[1] = .isr ∧ UDEC[2] = .isb ∧
    (∀ r : Fin 11, (h : 1 ≤ r.val ∧ r.val ≤ 9) →
      UDEC[4 * (9 - r.val) + 3] = .ark r ∧ UDEC[4 * (9 - r.val) + 4] = .imc ∧
      UDEC[4 * (9 - r.val) + 5] = .isr ∧ UDEC[4 * (9 - r.val) + 6] = .isb) ∧
    UDEC[39] = .ark 0) ∧
  (∀ (i : Fin 40) (S : Block) (rks : RoundKeys),
    applyMicroOp UDEC[i.val] (applyMicroOp UENC[39 - i.val] S rks) rks = S ∧
    applyMicroOp UENC[39 - i.val] (applyMicroOp UDEC[i.val] S rks) rks = S)

/-- Each round key is used exactly once by ENCRYPT and exactly once by DECRYPT (R162, the spec's derivation). -/
def Obligations.EachRoundKeyIsUsedOnce : Prop :=
  ∀ r : Fin 11, UENC.toList.count (.ark r) = 1 ∧ UDEC.toList.count (.ark r) = 1

/-- Applying a whole micro-sequence is the command's function (R165, R166, R170 to R172): the step view and the
transaction view agree as functions. -/
def Obligations.MicroSequencesComputeTheCipher : Prop :=
  ∀ block key : Block,
    stateAfter 0 40 block (expandKey key) = encrypt block key ∧
    stateAfter 1 40 block (expandKey key) = decrypt block key

/-- Decrypting what was encrypted under the same key gives the plaintext back (R179), and the reverse (R179, the
spec's derivation). -/
def Obligations.CipherRoundTrip : Prop :=
  ∀ P K : Block, decrypt (encrypt P K) K = P ∧ encrypt (decrypt P K) K = P

/-- The one vector the source gives (95_test_vectors.md V-SRC1), and its return by the round trip. -/
def Obligations.KnownVector : Prop :=
  encrypt 0x3243f6a8885a308d313198a2e0370734 0x2b7e151628aed2a6abf7158809cf4f3c =
    0x3925841d02dc09fbdc118597196a0b32 ∧
  decrypt 0x3925841d02dc09fbdc118597196a0b32 0x2b7e151628aed2a6abf7158809cf4f3c =
    0x3243f6a8885a308d313198a2e0370734

/-! ## Commands and transitions of aes_core -/

/-- A step runs the operation that the pins present: with pins that decode to an operation next in the host's
list, a step is that operation run on the state without that event; in a state that is not busy, any WAITs
before the pins are passed over (R97). The same for the event that a fetch gives, whatever the list. That a step
takes one event on one module's pins from a list in State is the model's choice (notes/assumptions/1.md and
7.md), and that a WAIT takes no step of its own once `busy = 0` is too (notes/assumptions/2.md). -/
def Obligations.StepRunsTheDecodedOperation : Prop :=
  (∀ (s : State) (p : Pins) (i : Instr), decode p = .ok i → step (s.drive p) = exec i s) ∧
  (∀ (s : State) (p : Pins) (i : Instr) (waits : Nat), decode p = .ok i → s.core.busy = false →
    step { s with host := List.replicate waits .wait ++ .drive p :: s.host } = exec i s) ∧
  (∀ (s : State) (i : Instr), decode (fetch s).1 = .ok i → step s = exec i (fetch s).2)

/-- R174: in `IDLE` a legal command is accepted, with exactly these registers after the edge; the same edge
taken as a step of the host's presenting pins. -/
def Obligations.LegalCommandIsAccepted : Prop :=
  ∀ (s : State) (block key : Block), s.core.fsm = .idle →
    (exec (.encrypt 16 16 block key) s =
      .next { s with core :=
        { fsm := .run, opQ := 0, seq := 0, state := block, rks := expandKey key,
          blockOut := 0, done := false, err := false } }) ∧
    (exec (.decrypt 16 16 block key) s =
      .next { s with core :=
        { fsm := .run, opQ := 1, seq := 0, state := block, rks := expandKey key,
          blockOut := 0, done := false, err := false } }) ∧
    step (s.drive (presentPins 0 16 16 block key)) = exec (.encrypt 16 16 block key) s ∧
    step (s.drive (presentPins 1 16 16 block key)) = exec (.decrypt 16 16 block key) s

/-- R175 and R203: in `IDLE` a command with a declared length other than 16 raises InvalidLength: `err` is set,
`done` and `block_out` are cleared, and nothing else changes, whatever `op`, `block_in` and `key_in` are. -/
def Obligations.IllegalLengthRaisesInvalidLength : Prop :=
  ∀ (s : State) (dataLen keyLen : BitVec 5) (op : BitVec 1) (block key : Block),
    s.core.fsm = .idle → (dataLen ≠ 16 ∨ keyLen ≠ 16) →
    step (s.drive (presentPins op dataLen keyLen block key)) =
      .next { s with core := { s.core with err := true, done := false, blockOut := 0 } } ∧
    exec (.encrypt dataLen keyLen block key) s =
      .next { s with core := { s.core with err := true, done := false, blockOut := 0 } } ∧
    exec (.decrypt dataLen keyLen block key) s =
      .next { s with core := { s.core with err := true, done := false, blockOut := 0 } }

/-- R169: in `RUN` every input but `rst` is ignored: an edge is what a quiet edge is, also for a presented
command, legal or not; and a quiet edge raises no error, queues nothing and leaves the running command its
schedule until it is over. -/
def Obligations.BusyIgnoresEveryInputButReset : Prop :=
  ∀ (s : State), s.core.fsm = .run →
    (∀ p : CorePins, p.rst = false → step (s.drive (.core p)) = quietEdge s) ∧
    (∀ (dataLen keyLen : BitVec 5) (block key : Block),
      exec (.encrypt dataLen keyLen block key) s = quietEdge s ∧
      exec (.decrypt dataLen keyLen block key) s = quietEdge s) ∧
    (∀ t, quietEdge s = .next t →
      t.core.err = s.core.err ∧ t.core.opQ = s.core.opQ ∧ t.host = s.host ∧ t.wires = s.wires ∧
      (t.core.fsm = .run → t.core.rks = s.core.rks))

/-- R83: which inputs an edge looks at. With `rst = 1` no other; with `rst = 0` in `RUN` no other; in `IDLE`
with `start = 0` no other; in `IDLE` with `start = 1` and an illegal length neither `block_in` nor `key_in`. -/
def Obligations.InputsCountOnlyWhenSampled : Prop :=
  ∀ (s : State) (p q : CorePins), p.rst = q.rst →
    (p.rst = true ∨ s.core.fsm = .run ∨
      (p.start = q.start ∧
        (p.start = false ∨
          (p.op = q.op ∧ p.dataLen = q.dataLen ∧ p.keyLen = q.keyLen ∧
            (p.dataLen ≠ 16 ∨ p.keyLen ≠ 16 ∨ (p.blockIn = q.blockIn ∧ p.keyIn = q.keyIn)))))) →
    step (s.drive (.core p)) = step (s.drive (.core q))

/-- R231: an edge with `rst = 1` clears every register, whatever the other inputs and the state. -/
def Obligations.ResetEdgeClearsEveryRegister : Prop :=
  ∀ (s : State) (p : CorePins), p.rst = true →
    step (s.drive (.core p)) =
      .next { s with core :=
        { fsm := .idle, opQ := 0, seq := 0, state := 0, rks := Vector.replicate 11 0, blockOut := 0,
          done := false, err := false } } ∧
    CoreRegs.reset.busy = false ∧ CoreRegs.reset.status = 0

/-- In `IDLE` with `start = 0` no register changes (R173 line 2, R215). -/
def Obligations.IdleWithoutStartHolds : Prop :=
  ∀ (s : State) (p : CorePins), p.rst = false → p.start = false → s.core.fsm = .idle →
    step (s.drive (.core p)) = .next s

/-- In `RUN` with `seq < 40` a transition applies one micro-operation of the sequence that `op_q` selects and
counts `seq` up by exactly 1 (R176). How many transitions an edge takes, and that the list of paces loses its
first entry, is the model's choice (notes/assumptions/3.md): here the edge takes one, and
RunningEdgeTakesAsManyTransitionsAsItsPace says what any other does. -/
def Obligations.SequencerStepAppliesOneMicroOp : Prop :=
  ∀ (s : State) (h : s.core.seq.toNat < 40), s.core.fsm = .run → (nextPace s.pace).1 = 1 →
    step (s.drive quietPins) =
      .next { s with
        core := { s.core with
          state := applyMicroOp (if s.core.opQ = 0 then UENC[s.core.seq.toNat] else UDEC[s.core.seq.toNat])
            s.core.state s.core.rks
          seq := s.core.seq + 1 }
        pace := (nextPace s.pace).2 } ∧
    (s.core.seq + 1).toNat = s.core.seq.toNat + 1

/-- In `RUN` with `seq = 40` the transition publishes the State as the result, clears `state`, `rks` and `seq`,
and returns to `IDLE`; `err` and `op_q` keep their values (R177). How many transitions an edge takes, and that
the list of paces loses its first entry, is the model's choice (notes/assumptions/3.md): here the edge takes
one, and RunningEdgeTakesAsManyTransitionsAsItsPace says what any other does. -/
def Obligations.SequencerFinishPublishesTheResult : Prop :=
  ∀ (s : State), s.core.seq.toNat = 40 → s.core.fsm = .run → (nextPace s.pace).1 = 1 →
    step (s.drive quietPins) =
      .next { s with
        core :=
          { fsm := .idle, opQ := s.core.opQ, seq := 0, state := 0, rks := Vector.replicate 11 0,
            blockOut := s.core.state, done := true, err := s.core.err }
        pace := (nextPace s.pace).2 }

/-- The two views agree (R178, the spec's derivation): from an `IDLE` state, an accepted command is, after
exactly 40 step transitions and one finish, in `IDLE` with `done = 1`, `err = 0` and the function of R165 or
R166 on `block_out`. -/
def Obligations.AcceptedCommandComputesItsResult : Prop :=
  ∀ (s : State) (block key : Block), s.core.fsm = .idle →
    ∀ i ∈ [(Instr.encrypt 16 16 block key, encrypt block key), (Instr.decrypt 16 16 block key, decrypt block key)],
      ∃ a : State, exec i.1 s = .next a ∧
        (∀ k : Nat, k ≤ 40 → ∃ c, a.core.advance k = .ok c ∧ c.fsm = .run ∧ c.seq.toNat = k) ∧
        ∃ c, a.core.advance 41 = .ok c ∧
          c.fsm = .idle ∧ c.done = true ∧ c.err = false ∧ c.blockOut = i.2 ∧
          c.state = 0 ∧ (∀ r : Fin 11, c.rks[r] = 0) ∧ c.seq = 0

/-- Termination (R242, the spec's derivation): with `rst` staying 0 an accepted command reaches its response
after finitely many steps, whatever else the host does meanwhile and however many transitions the implementation
takes at each edge (R243); until then the outputs show a busy core without a response. -/
def Obligations.EveryPaceReachesTheResponse : Prop :=
  ∀ (s : State) (block key : Block), s.core.fsm = .idle → NeverResets s.host →
    ∀ i ∈ [(Instr.encrypt 16 16 block key, encrypt block key), (Instr.decrypt 16 16 block key, decrypt block key)],
      ∃ (a t : State) (n : Nat), exec i.1 s = .next a ∧ runSteps n a = .next t ∧
        t.core.outputs = { busy := false, done := true, err := false, blockOut := i.2 } ∧
        ∀ m, m < n → ∃ u, runSteps m a = .next u ∧
          u.core.outputs = { busy := true, done := false, err := false, blockOut := 0 }

/-- The reference timing (R244): with one transition at every edge and a silent host, the response to either
command comes at the 41st edge after acceptance, with its result, and until then the core shows busy without a
response. That a silent host leaves the pins quiet and that an empty list of paces is one transition an edge are
the model's choices (notes/assumptions/2.md and 3.md). -/
def Obligations.ReferenceLatencyIsFortyOne : Prop :=
  ∀ (s : State) (block key : Block), s.core.fsm = .idle → s.host = [] → s.pace = [] →
    ∀ i ∈ [(Instr.encrypt 16 16 block key, encrypt block key), (Instr.decrypt 16 16 block key, decrypt block key)],
      ∃ a : State, exec i.1 s = .next a ∧
        (∃ t, runSteps 41 a = .next t ∧
          t.core.outputs = { busy := false, done := true, err := false, blockOut := i.2 }) ∧
        (∀ n, n ≤ 40 → ∃ u, runSteps n a = .next u ∧
          u.core.outputs = { busy := true, done := false, err := false, blockOut := 0 })

/-- The response to a command does not depend on the state it is presented in (R180, the spec's derivation):
from any two `IDLE` states one command, legal or not, leads to the same outputs. -/
def Obligations.ResponseIsStateless : Prop :=
  ∀ (s u : State) (dataLen keyLen : BitVec 5) (block key : Block),
    s.core.fsm = .idle → u.core.fsm = .idle →
    ∀ i ∈ [Instr.encrypt dataLen keyLen block key, Instr.decrypt dataLen keyLen block key],
      ∃ (a b : State) (c d : CoreRegs), exec i s = .next a ∧ exec i u = .next b ∧
        a.core.advance 41 = .ok c ∧ b.core.advance 41 = .ok d ∧
        c.outputs = d.outputs ∧ c.busy = false ∧ (c.done = true ∨ c.err = true)

/-! ## Invariants and rules of the whole machine -/

/-- The five invariants of R34, which the spec derives, hold in every state that a run from reset reaches,
whatever the host does and whatever the paces; the block and key of item 5 are the ones sampled at acceptance,
and a running core keeps them. -/
def Obligations.ReachableStatesMeetTheInvariants : Prop :=
  (∀ s : State, Reachable s → s.core.WellFormed ∧ s.core.TracksItsCommand) ∧
  (∀ (s a : State) (block key : Block), s.core.fsm = .idle →
    (exec (.encrypt 16 16 block key) s = .next a ∨ exec (.decrypt 16 16 block key) s = .next a) →
    a.core.fsm = .run ∧ a.core.Runs block key) ∧
  (∀ (s t : State) (block key : Block), s.core.fsm = .run → s.core.Runs block key → step s = .next t →
    t.core.fsm = .run → t.core.Runs block key)

/-- Every step keeps the invariants of R34, from every state that meets them. -/
def Obligations.StepKeepsTheInvariants : Prop :=
  ∀ s t : State, s.core.WellFormed ∧ s.core.TracksItsCommand → step s = .next t →
    t.core.WellFormed ∧ t.core.TracksItsCommand

/-- The state after reset meets the invariants of R34, and each module output is its module's function of the
inputs beside it (R32, R89 to R93). The levels of those inputs at reset are the model's choice
(notes/assumptions/5.md). -/
def Obligations.ResetMeetsTheInvariants : Prop :=
  State.reset.core.WellFormed ∧ State.reset.core.TracksItsCommand ∧ State.reset.wires.Settled

/-- Every step leaves each module's output the function of its inputs (R32). -/
def Obligations.StepKeepsTheWiresSettled : Prop :=
  ∀ s t : State, s.wires.Settled → step s = .next t → t.wires.Settled

/-- In a state that meets R34 the status word is 000, 001, 010 or 100, and `busy` is `fsm` (R29, R30). -/
def Obligations.OnlyFourStatusWords : Prop :=
  ∀ c : CoreRegs, c.WellFormed →
    (c.status = 0b000 ∨ c.status = 0b001 ∨ c.status = 0b010 ∨ c.status = 0b100) ∧
    (c.busy = true ↔ c.fsm = .run)

/-- From every state that meets R34 every step answers a next state: nothing in the block can fail (R200). -/
def Obligations.NoStepStops : Prop :=
  ∀ s : State, s.core.WellFormed → ∃ t, step s = .next t

/-- The one stop of the model (notes/assumptions/4.md): in `RUN` with `seq` above 40 no line of R173 applies,
and an edge that takes a transition faults by name. -/
def Obligations.SequencerBeyondFortyFaults : Prop :=
  ∀ s : State, s.core.fsm = .run → 40 < s.core.seq.toNat → 1 ≤ (nextPace s.pace).1 →
    step (s.drive quietPins) = .fault .seqOutOfRange

/-- Only these events change the status flags (R27, R28). `done` falls only when a command is presented in
`IDLE` or at reset, and rises only at a finish; `err` rises only when a command with an illegal length is
presented in `IDLE`, and falls only at the acceptance of a legal one or at reset. -/
def Obligations.OnlyTheirEventsChangeDoneAndErr : Prop :=
  ∀ s t : State, s.core.WellFormed → step s = .next t →
    (s.core.done = true → t.core.done = false →
      ∃ p, (fetch s).1 = .core p ∧ (p.rst = true ∨ (p.start = true ∧ s.core.fsm = .idle))) ∧
    (s.core.done = false → t.core.done = true →
      s.core.fsm = .run ∧ t.core.fsm = .idle) ∧
    (s.core.err = false → t.core.err = true →
      ∃ p, (fetch s).1 = .core p ∧ p.rst = false ∧ p.start = true ∧ s.core.fsm = .idle ∧
        (p.dataLen ≠ 16 ∨ p.keyLen ≠ 16)) ∧
    (s.core.err = true → t.core.err = false →
      ∃ p, (fetch s).1 = .core p ∧
        (p.rst = true ∨ (p.start = true ∧ s.core.fsm = .idle ∧ p.dataLen = 16 ∧ p.keyLen = 16)))

/-- A core leaves `IDLE` only by accepting a legal command, with that command's schedule and block in its
registers (R167, R173, R202). -/
def Obligations.OnlyAcceptanceLeavesIdle : Prop :=
  ∀ s t : State, s.core.fsm = .idle → step s = .next t → t.core.fsm = .run →
    ∃ p, (fetch s).1 = .core p ∧ p.rst = false ∧ p.start = true ∧ p.dataLen = 16 ∧ p.keyLen = 16 ∧
      t.core = s.core.accept p.op p.blockIn p.keyIn

/-- A host that ties both declared lengths to 16 never sees InvalidLength (R206, the spec's derivation): `err`
stays 0 at every step, what is left of its program still ties them, and every command it presents is accepted.
-/
def Obligations.TiedLengthsNeverRaiseInvalidLength : Prop :=
  ∀ s t : State,
    (∀ p : CorePins, HostAction.drive (.core p) ∈ s.host → p.dataLen = 16 ∧ p.keyLen = 16) →
    s.core.err = false → step s = .next t →
    t.core.err = false ∧
    (∀ p : CorePins, HostAction.drive (.core p) ∈ t.host → p.dataLen = 16 ∧ p.keyLen = 16) ∧
    (∀ p : CorePins, (fetch s).1 = .core p → p.rst = false → p.start = true → s.core.fsm = .idle →
      t.core = s.core.accept p.op p.blockIn p.keyIn)

/-- The frame of the commands and of the module operations (R13, R32, R96): a command changes no wire of another
module and nothing that the host still has to do; an operation of a combinational module completes in every
state and changes no register of `aes_core`. -/
def Obligations.CoreAndModulesDoNotInterfere : Prop :=
  (∀ (s t : State) (dataLen keyLen : BitVec 5) (block key : Block),
    (exec (.encrypt dataLen keyLen block key) s = .next t ∨ exec (.decrypt dataLen keyLen block key) s = .next t) →
    t.wires = s.wires ∧ t.host = s.host) ∧
  (∀ (i : Instr) (s : State), (encode i).module ≠ .aesCore →
    ∃ t, exec i s = .next t ∧ t.core = s.core ∧ t.host = s.host ∧ t.pace = s.pace)

/-- WAIT (R97): while `busy = 1` a waiting host leaves the pins quiet and goes on waiting; once `busy = 0` it
goes on with what comes next. A host with nothing left to do leaves the pins quiet: the model's choice
(notes/assumptions/2.md). -/
def Obligations.WaitHoldsTheHostUntilIdle : Prop :=
  ∀ (s : State) (rest : List HostAction),
    (s.core.busy = true → step { s with host := .wait :: rest } = quietEdge { s with host := .wait :: rest }) ∧
    (s.core.busy = false → step { s with host := .wait :: rest } = step { s with host := rest }) ∧
    step { s with host := [] } = quietEdge { s with host := [] }

/-- What an edge in `RUN` does to the registers, for every number of transitions that R173 lets it take: it
holds (none), applies as many micro-operations as it takes transitions, and once they pass place 40 it ends with
the finish. In terms of the transitions: the registers after the edge are those that `advance` gives. That the
number is the first entry of a list of paces in State is the model's choice (notes/assumptions/3.md). -/
def Obligations.RunningEdgeTakesAsManyTransitionsAsItsPace : Prop :=
  ∀ (s : State) (k : Nat), s.core.fsm = .run → (nextPace s.pace).1 = k →
    (∀ c, s.core.advance k = .ok c →
      step (s.drive quietPins) = .next { s with core := c, pace := (nextPace s.pace).2 }) ∧
    (k = 0 → step (s.drive quietPins) = .next { s with pace := (nextPace s.pace).2 }) ∧
    (s.core.seq.toNat + k ≤ 40 →
      step (s.drive quietPins) =
        .next { s with
          core := { s.core with
            state := stateAfterNext s.core.opQ s.core.seq.toNat k s.core.state s.core.rks
            seq := BitVec.ofNat 6 (s.core.seq.toNat + k) }
          pace := (nextPace s.pace).2 }) ∧
    (s.core.seq.toNat ≤ 40 → 40 < s.core.seq.toNat + k →
      step (s.drive quietPins) =
        .next { s with
          core :=
            { fsm := .idle, opQ := s.core.opQ, seq := 0, state := 0, rks := Vector.replicate 11 0,
              blockOut := stateAfterNext s.core.opQ s.core.seq.toNat k s.core.state s.core.rks,
              done := true, err := s.core.err }
          pace := (nextPace s.pace).2 })
end

