-- ==== Sys2Proof/Laws/Decode.lean ====
section
/-! SUPPORT. What the decoder can answer, said once: the fields of the control word, and what an edge of
`aes_core` presents. -/

namespace Sys2Proof

theorem bit_cases (b : BitVec 1) : b = 0 ∨ b = 1 := by
  revert b
  decide

theorem ctrl_fields (op : BitVec 1) (dataLen keyLen : BitVec 5) :
    (op ++ dataLen ++ keyLen).extractLsb' 10 1 = op ∧
    (op ++ dataLen ++ keyLen).extractLsb' 5 5 = dataLen ∧
    (op ++ dataLen ++ keyLen).extractLsb' 0 5 = keyLen := by
  refine ⟨?_, ?_, ?_⟩
  · simp (disch := decide) only [BitVec.extractLsb'_append_eq_of_le, -Nat.reduceAdd]
    exact BitVec.extractLsb'_eq_self
  · simp (disch := decide) only [BitVec.extractLsb'_append_eq_of_le, BitVec.extractLsb'_append_eq_of_add_le,
      -Nat.reduceAdd]
    exact BitVec.extractLsb'_eq_self
  · simp (disch := decide) only [BitVec.extractLsb'_append_eq_of_add_le, -Nat.reduceAdd]
    exact BitVec.extractLsb'_eq_self

@[simp] theorem ctrlDataLen_ctrl (p : CorePins) : ctrlDataLen p.ctrl = p.dataLen :=
  (ctrl_fields p.op p.dataLen p.keyLen).2.1

@[simp] theorem ctrlKeyLen_ctrl (p : CorePins) : ctrlKeyLen p.ctrl = p.keyLen :=
  (ctrl_fields p.op p.dataLen p.keyLen).2.2

theorem ctrl_of_fields (w : BitVec 11) :
    (w.extractLsb' 10 1 ++ w.extractLsb' 5 5 ++ w.extractLsb' 0 5 : BitVec 11) = w := by
  revert w
  decide +kernel

/-- A control word is its three fields (R86). -/
theorem ctrl_eq_iff (p : CorePins) (w : BitVec 11) :
    p.ctrl = w ↔ p.op = w.extractLsb' 10 1 ∧ p.dataLen = w.extractLsb' 5 5 ∧ p.keyLen = w.extractLsb' 0 5 := by
  constructor
  · rintro rfl
    obtain ⟨h1, h2, h3⟩ := ctrl_fields p.op p.dataLen p.keyLen
    exact ⟨h1.symm, h2.symm, h3.symm⟩
  · rintro ⟨h1, h2, h3⟩
    rw [CorePins.ctrl, h1, h2, h3, ctrl_of_fields]

theorem ctrl_mask (w : BitVec 11) : w &&& 0x7FF = w := by
  revert w
  decide +kernel

theorem decodeCore_reset {p : CorePins} (h : p.rst = true) : decodeCore p = .error .resetAsserted := by
  simp [decodeCore, h]

theorem decodeCore_quiet {p : CorePins} (hr : p.rst = false) (hs : p.start = false) :
    decodeCore p = .error .noCommand := by
  simp [decodeCore, hr, hs]

/-- What an edge with `rst = 0` and `start = 1` presents. -/
theorem decodeCore_present {p : CorePins} (hr : p.rst = false) (hs : p.start = true) :
    decodeCore p =
      if p.dataLen = 16 ∧ p.keyLen = 16 then
        .ok (if p.op = 0 then .encrypt 16 16 p.blockIn p.keyIn else .decrypt 16 16 p.blockIn p.keyIn)
      else .error .invalidLength := by
  have he : (p.ctrl = 0x210) ↔ (p.op = 0 ∧ p.dataLen = 16 ∧ p.keyLen = 16) := ctrl_eq_iff p 0x210
  have hd : (p.ctrl = 0x610) ↔ (p.op = 1 ∧ p.dataLen = 16 ∧ p.keyLen = 16) := ctrl_eq_iff p 0x610
  simp only [decodeCore, hr, hs, decodeCommand, ctrl_mask, he, hd, ctrlDataLen_ctrl, ctrlKeyLen_ctrl]
  by_cases hl : p.dataLen = 16 ∧ p.keyLen = 16
  · rcases bit_cases p.op with ho | ho <;> simp [ho, hl]
  · simp only [hl, and_false, if_false, if_true, Bool.false_eq_true]

/-- Pins of `aes_core` that present an operation. -/
theorem decodeCore_ok {p : CorePins} {i : Instr} (h : decodeCore p = .ok i) :
    p.rst = false ∧ p.start = true ∧ p.dataLen = 16 ∧ p.keyLen = 16 ∧
    ((p.op = 0 ∧ i = .encrypt 16 16 p.blockIn p.keyIn) ∨ (p.op = 1 ∧ i = .decrypt 16 16 p.blockIn p.keyIn)) := by
  cases hr : p.rst with
  | true => simp [decodeCore_reset hr] at h
  | false =>
    cases hs : p.start with
    | false => simp [decodeCore_quiet hr hs] at h
    | true =>
      rw [decodeCore_present hr hs] at h
      split at h
      · next hl =>
        refine ⟨rfl, rfl, hl.1, hl.2, ?_⟩
        rcases bit_cases p.op with ho | ho
        · exact .inl ⟨ho, by simpa [ho] using h.symm⟩
        · exact .inr ⟨ho, by simpa [ho] using h.symm⟩
      · simp at h

end Sys2Proof
end

