-- ==== Sys2Proof/Laws/Operands.lean ====
section
/-! SUPPORT. What the views of an operand say of each other: reading a byte or a cell of a block that was built
from bytes or cells, and two blocks with the same bytes or cells being one block. -/

namespace Sys2Proof.Machine

/-- Reading a byte of a block built from bytes. -/
@[simp] theorem byteOf_blockOfBytes (f : Fin 16 → Byte) (i : Fin 16) : byteOf (blockOfBytes f) i = f i := by
  change (f 0 ++ f 1 ++ f 2 ++ f 3 ++ f 4 ++ f 5 ++ f 6 ++ f 7 ++ f 8 ++ f 9 ++ f 10 ++ f 11 ++ f 12 ++
    f 13 ++ f 14 ++ f 15).extractLsb' (120 - 8 * i.val) 8 = f i
  fin_cases i <;> simp (disch := decide) only [BitVec.extractLsb'_append_eq_of_le,
    BitVec.extractLsb'_append_eq_of_add_le, -Nat.reduceAdd] <;> exact BitVec.extractLsb'_eq_self

theorem getLsbD_byteOf (B : Block) (i : Fin 16) (j : Nat) :
    (byteOf B i).getLsbD j = (decide (j < 8) && B.getLsbD (120 - 8 * i.val + j)) :=
  BitVec.getLsbD_extractLsb' _ _ _ _

/-- Two blocks with the same sixteen bytes are the same block. -/
theorem block_ext {A B : Block} (h : ∀ i, byteOf A i = byteOf B i) : A = B := by
  apply BitVec.eq_of_getLsbD_eq
  intro n hn
  have hi := congrArg (fun b : Byte => b.getLsbD (n % 8)) (h ⟨15 - n / 8, by omega⟩)
  have hn' : 120 - 8 * (15 - n / 8) + n % 8 = n := by omega
  simp only [getLsbD_byteOf, hn', show n % 8 < 8 by omega, decide_true, Bool.true_and] at hi
  exact hi

@[simp] theorem blockOfBytes_byteOf (B : Block) : blockOfBytes (byteOf B) = B :=
  block_ext fun i => byteOf_blockOfBytes _ i

/-- Byte `i` is the cell in row `i mod 4` and column `i / 4` (R8). -/
theorem byteOf_eq_cellOf (B : Block) (i : Fin 16) :
    byteOf B i = cellOf B ⟨i.val % 4, by omega⟩ ⟨i.val / 4, by omega⟩ := by
  have hi : i.val % 4 + 4 * (i.val / 4) = i.val := Nat.mod_add_div i.val 4
  simp only [cellOf, hi]

theorem byteOf_blockOfCells (f : Fin 4 → Fin 4 → Byte) (i : Fin 16) :
    byteOf (blockOfCells f) i = f ⟨i.val % 4, by omega⟩ ⟨i.val / 4, by omega⟩ :=
  byteOf_blockOfBytes _ i

/-- Reading a cell of a block built from cells. -/
@[simp] theorem cellOf_blockOfCells (f : Fin 4 → Fin 4 → Byte) (r c : Fin 4) :
    cellOf (blockOfCells f) r c = f r c := by
  have hr : (r.val + 4 * c.val) % 4 = r.val := by omega
  have hc : (r.val + 4 * c.val) / 4 = c.val := by omega
  simp only [cellOf, byteOf_blockOfCells, hr, hc]

/-- Two blocks with the same cells are the same block. -/
theorem block_ext_cells {A B : Block} (h : ∀ r c, cellOf A r c = cellOf B r c) : A = B :=
  block_ext fun i => by rw [byteOf_eq_cellOf A, byteOf_eq_cellOf B, h]

@[simp] theorem blockOfCells_cellOf (B : Block) : blockOfCells (cellOf B) = B :=
  block_ext_cells fun r c => cellOf_blockOfCells _ r c

@[simp] theorem byteOf_xor (A B : Block) (i : Fin 16) : byteOf (A ^^^ B) i = byteOf A i ^^^ byteOf B i :=
  BitVec.extractLsb'_xor

@[simp] theorem cellOf_xor (A B : Block) (r c : Fin 4) : cellOf (A ^^^ B) r c = cellOf A r c ^^^ cellOf B r c :=
  byteOf_xor A B _

theorem columnOf_getElem (B : Block) (c k : Fin 4) : (columnOf B c)[k] = cellOf B k c := by
  fin_cases k <;> rfl

theorem columnOf_blockOfCells (f : Fin 4 → Fin 4 → Byte) (c : Fin 4) :
    columnOf (blockOfCells f) c = #v[f 0 c, f 1 c, f 2 c, f 3 c] := by
  simp only [columnOf, cellOf_blockOfCells]

/-- Reading a byte of a word built from bytes. -/
theorem wordByte_wordOf (b : Fin 4 → Byte) (k : Fin 4) :
    wordByte (wordOf (b 0) (b 1) (b 2) (b 3)) k = b k := by
  change (b 0 ++ b 1 ++ b 2 ++ b 3).extractLsb' (24 - 8 * k.val) 8 = b k
  fin_cases k <;> simp (disch := decide) only [BitVec.extractLsb'_append_eq_of_le,
    BitVec.extractLsb'_append_eq_of_add_le, -Nat.reduceAdd] <;> exact BitVec.extractLsb'_eq_self

@[simp] theorem wordByte_xor (v w : Word) (k : Fin 4) : wordByte (v ^^^ w) k = wordByte v k ^^^ wordByte w k :=
  BitVec.extractLsb'_xor

/-- Column `c` as a word has the cells of column `c` as its bytes (R52). -/
theorem wordByte_colWord (B : Block) (c j : Fin 4) : wordByte (colWord B c) j = cellOf B j c := by
  apply BitVec.eq_of_getLsbD_eq
  intro n hn
  have h1 : 24 - 8 * j.val + n < 32 := by omega
  have h2 : 96 - 32 * c.val + (24 - 8 * j.val + n) = 120 - 8 * (j.val + 4 * c.val) + n := by omega
  simp only [wordByte, colWord, cellOf, byteOf, BitVec.getLsbD_extractLsb', h1, h2, decide_true, Bool.true_and]

/-- The columns of a round key are the words it was built from (R53). -/
theorem colWord_blockOfWords (w : Fin 4 → Word) (c : Fin 4) :
    colWord (blockOfWords (w 0) (w 1) (w 2) (w 3)) c = w c := by
  change (w 0 ++ w 1 ++ w 2 ++ w 3).extractLsb' (96 - 32 * c.val) 32 = w c
  fin_cases c <;> simp (disch := decide) only [BitVec.extractLsb'_append_eq_of_le,
    BitVec.extractLsb'_append_eq_of_add_le, -Nat.reduceAdd] <;> exact BitVec.extractLsb'_eq_self

/-- Two blocks with the same column words are the same block. -/
theorem block_ext_words {A B : Block} (h : ∀ c, colWord A c = colWord B c) : A = B :=
  block_ext_cells fun r c => by rw [← wordByte_colWord, ← wordByte_colWord, h]

/-- `rk_flat` holds each round key at its place (R92). -/
@[simp] theorem roundKeyOfFlat_flatten (rks : RoundKeys) (r : Fin 11) :
    roundKeyOfFlat (flattenRoundKeys rks) r = rks[r] := by
  change (rks[0] ++ rks[1] ++ rks[2] ++ rks[3] ++ rks[4] ++ rks[5] ++ rks[6] ++ rks[7] ++ rks[8] ++
    rks[9] ++ rks[10]).extractLsb' (1280 - 128 * r.val) 128 = rks[r]
  fin_cases r <;> simp (disch := decide) only [BitVec.extractLsb'_append_eq_of_le,
    BitVec.extractLsb'_append_eq_of_add_le, -Nat.reduceAdd] <;> exact BitVec.extractLsb'_eq_self

end Sys2Proof.Machine
end

