-- ==== Sys2Proof/Laws/State.lean ====
section
/-! SUPPORT. One lemma per field per update, true by definition: the updates of the registers of `aes_core`,
of the modules' wires and of the machine state, so that no later proof unfolds a record update. -/

namespace Sys2Proof.Machine

section clearResponse

variable (c : CoreRegs)

@[simp] theorem CoreRegs.clearResponse_fsm : (c.clearResponse).fsm = c.fsm := rfl
@[simp] theorem CoreRegs.clearResponse_opQ : (c.clearResponse).opQ = c.opQ := rfl
@[simp] theorem CoreRegs.clearResponse_seq : (c.clearResponse).seq = c.seq := rfl
@[simp] theorem CoreRegs.clearResponse_state : (c.clearResponse).state = c.state := rfl
@[simp] theorem CoreRegs.clearResponse_rks : (c.clearResponse).rks = c.rks := rfl
@[simp] theorem CoreRegs.clearResponse_blockOut : (c.clearResponse).blockOut = 0 := rfl
@[simp] theorem CoreRegs.clearResponse_done : (c.clearResponse).done = false := rfl
@[simp] theorem CoreRegs.clearResponse_err : (c.clearResponse).err = false := rfl

end clearResponse

section signalDone

variable (c : CoreRegs)

@[simp] theorem CoreRegs.signalDone_fsm : (c.signalDone).fsm = c.fsm := rfl
@[simp] theorem CoreRegs.signalDone_opQ : (c.signalDone).opQ = c.opQ := rfl
@[simp] theorem CoreRegs.signalDone_seq : (c.signalDone).seq = c.seq := rfl
@[simp] theorem CoreRegs.signalDone_state : (c.signalDone).state = c.state := rfl
@[simp] theorem CoreRegs.signalDone_rks : (c.signalDone).rks = c.rks := rfl
@[simp] theorem CoreRegs.signalDone_blockOut : (c.signalDone).blockOut = c.state := rfl
@[simp] theorem CoreRegs.signalDone_done : (c.signalDone).done = true := rfl
@[simp] theorem CoreRegs.signalDone_err : (c.signalDone).err = c.err := rfl

end signalDone

section signalInvalidLength

variable (c : CoreRegs)

@[simp] theorem CoreRegs.signalInvalidLength_fsm : (c.signalInvalidLength).fsm = c.fsm := rfl
@[simp] theorem CoreRegs.signalInvalidLength_opQ : (c.signalInvalidLength).opQ = c.opQ := rfl
@[simp] theorem CoreRegs.signalInvalidLength_seq : (c.signalInvalidLength).seq = c.seq := rfl
@[simp] theorem CoreRegs.signalInvalidLength_state : (c.signalInvalidLength).state = c.state := rfl
@[simp] theorem CoreRegs.signalInvalidLength_rks : (c.signalInvalidLength).rks = c.rks := rfl
@[simp] theorem CoreRegs.signalInvalidLength_blockOut : (c.signalInvalidLength).blockOut = 0 := rfl
@[simp] theorem CoreRegs.signalInvalidLength_done : (c.signalInvalidLength).done = false := rfl
@[simp] theorem CoreRegs.signalInvalidLength_err : (c.signalInvalidLength).err = true := rfl

end signalInvalidLength

section reset

@[simp] theorem CoreRegs.reset_fsm : (CoreRegs.reset).fsm = .idle := rfl
@[simp] theorem CoreRegs.reset_opQ : (CoreRegs.reset).opQ = 0 := rfl
@[simp] theorem CoreRegs.reset_seq : (CoreRegs.reset).seq = 0 := rfl
@[simp] theorem CoreRegs.reset_state : (CoreRegs.reset).state = 0 := rfl
@[simp] theorem CoreRegs.reset_rks : (CoreRegs.reset).rks = Vector.replicate 11 0 := rfl
@[simp] theorem CoreRegs.reset_blockOut : (CoreRegs.reset).blockOut = 0 := rfl
@[simp] theorem CoreRegs.reset_done : (CoreRegs.reset).done = false := rfl
@[simp] theorem CoreRegs.reset_err : (CoreRegs.reset).err = false := rfl

end reset

section accept

variable (op : BitVec 1) (block key : Block) (c : CoreRegs)

@[simp] theorem CoreRegs.accept_fsm : (c.accept op block key).fsm = .run := rfl
@[simp] theorem CoreRegs.accept_opQ : (c.accept op block key).opQ = op := rfl
@[simp] theorem CoreRegs.accept_seq : (c.accept op block key).seq = 0 := rfl
@[simp] theorem CoreRegs.accept_state : (c.accept op block key).state = block := rfl
@[simp] theorem CoreRegs.accept_rks : (c.accept op block key).rks = expandKey key := rfl
@[simp] theorem CoreRegs.accept_blockOut : (c.accept op block key).blockOut = 0 := rfl
@[simp] theorem CoreRegs.accept_done : (c.accept op block key).done = false := rfl
@[simp] theorem CoreRegs.accept_err : (c.accept op block key).err = false := rfl

end accept

section raiseInvalidLength

variable (c : CoreRegs)

@[simp] theorem CoreRegs.raiseInvalidLength_fsm : (c.raiseInvalidLength).fsm = c.fsm := rfl
@[simp] theorem CoreRegs.raiseInvalidLength_opQ : (c.raiseInvalidLength).opQ = c.opQ := rfl
@[simp] theorem CoreRegs.raiseInvalidLength_seq : (c.raiseInvalidLength).seq = c.seq := rfl
@[simp] theorem CoreRegs.raiseInvalidLength_state : (c.raiseInvalidLength).state = c.state := rfl
@[simp] theorem CoreRegs.raiseInvalidLength_rks : (c.raiseInvalidLength).rks = c.rks := rfl
@[simp] theorem CoreRegs.raiseInvalidLength_blockOut : (c.raiseInvalidLength).blockOut = 0 := rfl
@[simp] theorem CoreRegs.raiseInvalidLength_done : (c.raiseInvalidLength).done = false := rfl
@[simp] theorem CoreRegs.raiseInvalidLength_err : (c.raiseInvalidLength).err = true := rfl

end raiseInvalidLength

section seqStep

variable (c : CoreRegs) (h : c.seq.toNat < 40)

@[simp] theorem CoreRegs.seqStep_fsm : (c.seqStep h).fsm = c.fsm := rfl
@[simp] theorem CoreRegs.seqStep_opQ : (c.seqStep h).opQ = c.opQ := rfl
@[simp] theorem CoreRegs.seqStep_seq : (c.seqStep h).seq = c.seq + 1 := rfl
@[simp] theorem CoreRegs.seqStep_state : (c.seqStep h).state = 
    applyMicroOp ((microSequence c.opQ)[c.seq.toNat]'h) c.state c.rks := rfl
@[simp] theorem CoreRegs.seqStep_rks : (c.seqStep h).rks = c.rks := rfl
@[simp] theorem CoreRegs.seqStep_blockOut : (c.seqStep h).blockOut = c.blockOut := rfl
@[simp] theorem CoreRegs.seqStep_done : (c.seqStep h).done = c.done := rfl
@[simp] theorem CoreRegs.seqStep_err : (c.seqStep h).err = c.err := rfl

end seqStep

section finish

variable (c : CoreRegs)

@[simp] theorem CoreRegs.finish_fsm : (c.finish).fsm = .idle := rfl
@[simp] theorem CoreRegs.finish_opQ : (c.finish).opQ = c.opQ := rfl
@[simp] theorem CoreRegs.finish_seq : (c.finish).seq = 0 := rfl
@[simp] theorem CoreRegs.finish_state : (c.finish).state = 0 := rfl
@[simp] theorem CoreRegs.finish_rks : (c.finish).rks = Vector.replicate 11 0 := rfl
@[simp] theorem CoreRegs.finish_blockOut : (c.finish).blockOut = c.state := rfl
@[simp] theorem CoreRegs.finish_done : (c.finish).done = true := rfl
@[simp] theorem CoreRegs.finish_err : (c.finish).err = c.err := rfl

end finish

@[simp] theorem CoreRegs.doReset_eq (c : CoreRegs) : c.doReset = CoreRegs.reset := rfl

section driveGfm

variable (a b : Byte) (s : State)

@[simp] theorem driveGfm_core : (driveGfm a b s).core = s.core := rfl
@[simp] theorem driveGfm_host : (driveGfm a b s).host = s.host := rfl
@[simp] theorem driveGfm_pace : (driveGfm a b s).pace = s.pace := rfl
@[simp] theorem driveGfm_gfm : (driveGfm a b s).wires.gfm = 
    { a := a, b := b, p := gmult a b } := rfl
@[simp] theorem driveGfm_sbox : (driveGfm a b s).wires.sbox = s.wires.sbox := rfl
@[simp] theorem driveGfm_keySchedule : (driveGfm a b s).wires.keySchedule = s.wires.keySchedule := rfl
@[simp] theorem driveGfm_subBytes : (driveGfm a b s).wires.subBytes = s.wires.subBytes := rfl
@[simp] theorem driveGfm_shiftRows : (driveGfm a b s).wires.shiftRows = s.wires.shiftRows := rfl
@[simp] theorem driveGfm_mixColumns : (driveGfm a b s).wires.mixColumns = s.wires.mixColumns := rfl
@[simp] theorem driveGfm_addRoundKey : (driveGfm a b s).wires.addRoundKey = s.wires.addRoundKey := rfl

end driveGfm

section driveSbox

variable (inv : BitVec 1) (x : Byte) (s : State)

@[simp] theorem driveSbox_core : (driveSbox inv x s).core = s.core := rfl
@[simp] theorem driveSbox_host : (driveSbox inv x s).host = s.host := rfl
@[simp] theorem driveSbox_pace : (driveSbox inv x s).pace = s.pace := rfl
@[simp] theorem driveSbox_gfm : (driveSbox inv x s).wires.gfm = s.wires.gfm := rfl
@[simp] theorem driveSbox_sbox : (driveSbox inv x s).wires.sbox = 
    { inv := inv, x := x, y := aesSbox inv x } := rfl
@[simp] theorem driveSbox_keySchedule : (driveSbox inv x s).wires.keySchedule = s.wires.keySchedule := rfl
@[simp] theorem driveSbox_subBytes : (driveSbox inv x s).wires.subBytes = s.wires.subBytes := rfl
@[simp] theorem driveSbox_shiftRows : (driveSbox inv x s).wires.shiftRows = s.wires.shiftRows := rfl
@[simp] theorem driveSbox_mixColumns : (driveSbox inv x s).wires.mixColumns = s.wires.mixColumns := rfl
@[simp] theorem driveSbox_addRoundKey : (driveSbox inv x s).wires.addRoundKey = s.wires.addRoundKey := rfl

end driveSbox

section driveKeySchedule

variable (key : Block) (s : State)

@[simp] theorem driveKeySchedule_core : (driveKeySchedule key s).core = s.core := rfl
@[simp] theorem driveKeySchedule_host : (driveKeySchedule key s).host = s.host := rfl
@[simp] theorem driveKeySchedule_pace : (driveKeySchedule key s).pace = s.pace := rfl
@[simp] theorem driveKeySchedule_gfm : (driveKeySchedule key s).wires.gfm = s.wires.gfm := rfl
@[simp] theorem driveKeySchedule_sbox : (driveKeySchedule key s).wires.sbox = s.wires.sbox := rfl
@[simp] theorem driveKeySchedule_keySchedule : (driveKeySchedule key s).wires.keySchedule = 
    { key := key, rkFlat := flattenRoundKeys (expandKey key) } := rfl
@[simp] theorem driveKeySchedule_subBytes : (driveKeySchedule key s).wires.subBytes = s.wires.subBytes := rfl
@[simp] theorem driveKeySchedule_shiftRows : (driveKeySchedule key s).wires.shiftRows = s.wires.shiftRows := rfl
@[simp] theorem driveKeySchedule_mixColumns : (driveKeySchedule key s).wires.mixColumns = s.wires.mixColumns := rfl
@[simp] theorem driveKeySchedule_addRoundKey : (driveKeySchedule key s).wires.addRoundKey = s.wires.addRoundKey := rfl

end driveKeySchedule

section driveSubBytes

variable (inv : BitVec 1) (sIn : Block) (s : State)

@[simp] theorem driveSubBytes_core : (driveSubBytes inv sIn s).core = s.core := rfl
@[simp] theorem driveSubBytes_host : (driveSubBytes inv sIn s).host = s.host := rfl
@[simp] theorem driveSubBytes_pace : (driveSubBytes inv sIn s).pace = s.pace := rfl
@[simp] theorem driveSubBytes_gfm : (driveSubBytes inv sIn s).wires.gfm = s.wires.gfm := rfl
@[simp] theorem driveSubBytes_sbox : (driveSubBytes inv sIn s).wires.sbox = s.wires.sbox := rfl
@[simp] theorem driveSubBytes_keySchedule : (driveSubBytes inv sIn s).wires.keySchedule = s.wires.keySchedule := rfl
@[simp] theorem driveSubBytes_subBytes : (driveSubBytes inv sIn s).wires.subBytes = 
    { inv := inv, sIn := sIn, sOut := subBytesStage inv sIn } := rfl
@[simp] theorem driveSubBytes_shiftRows : (driveSubBytes inv sIn s).wires.shiftRows = s.wires.shiftRows := rfl
@[simp] theorem driveSubBytes_mixColumns : (driveSubBytes inv sIn s).wires.mixColumns = s.wires.mixColumns := rfl
@[simp] theorem driveSubBytes_addRoundKey : (driveSubBytes inv sIn s).wires.addRoundKey = s.wires.addRoundKey := rfl

end driveSubBytes

section driveShiftRows

variable (inv : BitVec 1) (sIn : Block) (s : State)

@[simp] theorem driveShiftRows_core : (driveShiftRows inv sIn s).core = s.core := rfl
@[simp] theorem driveShiftRows_host : (driveShiftRows inv sIn s).host = s.host := rfl
@[simp] theorem driveShiftRows_pace : (driveShiftRows inv sIn s).pace = s.pace := rfl
@[simp] theorem driveShiftRows_gfm : (driveShiftRows inv sIn s).wires.gfm = s.wires.gfm := rfl
@[simp] theorem driveShiftRows_sbox : (driveShiftRows inv sIn s).wires.sbox = s.wires.sbox := rfl
@[simp] theorem driveShiftRows_keySchedule : (driveShiftRows inv sIn s).wires.keySchedule = s.wires.keySchedule := rfl
@[simp] theorem driveShiftRows_subBytes : (driveShiftRows inv sIn s).wires.subBytes = s.wires.subBytes := rfl
@[simp] theorem driveShiftRows_shiftRows : (driveShiftRows inv sIn s).wires.shiftRows = 
    { inv := inv, sIn := sIn, sOut := shiftRowsStage inv sIn } := rfl
@[simp] theorem driveShiftRows_mixColumns : (driveShiftRows inv sIn s).wires.mixColumns = s.wires.mixColumns := rfl
@[simp] theorem driveShiftRows_addRoundKey : (driveShiftRows inv sIn s).wires.addRoundKey = s.wires.addRoundKey := rfl

end driveShiftRows

section driveMixColumns

variable (inv : BitVec 1) (sIn : Block) (s : State)

@[simp] theorem driveMixColumns_core : (driveMixColumns inv sIn s).core = s.core := rfl
@[simp] theorem driveMixColumns_host : (driveMixColumns inv sIn s).host = s.host := rfl
@[simp] theorem driveMixColumns_pace : (driveMixColumns inv sIn s).pace = s.pace := rfl
@[simp] theorem driveMixColumns_gfm : (driveMixColumns inv sIn s).wires.gfm = s.wires.gfm := rfl
@[simp] theorem driveMixColumns_sbox : (driveMixColumns inv sIn s).wires.sbox = s.wires.sbox := rfl
@[simp] theorem driveMixColumns_keySchedule : (driveMixColumns inv sIn s).wires.keySchedule = s.wires.keySchedule := rfl
@[simp] theorem driveMixColumns_subBytes : (driveMixColumns inv sIn s).wires.subBytes = s.wires.subBytes := rfl
@[simp] theorem driveMixColumns_shiftRows : (driveMixColumns inv sIn s).wires.shiftRows = s.wires.shiftRows := rfl
@[simp] theorem driveMixColumns_mixColumns : (driveMixColumns inv sIn s).wires.mixColumns = 
    { inv := inv, sIn := sIn, sOut := mixColumnsStage inv sIn } := rfl
@[simp] theorem driveMixColumns_addRoundKey : (driveMixColumns inv sIn s).wires.addRoundKey = s.wires.addRoundKey := rfl

end driveMixColumns

section driveAddRoundKey

variable (sIn rk : Block) (s : State)

@[simp] theorem driveAddRoundKey_core : (driveAddRoundKey sIn rk s).core = s.core := rfl
@[simp] theorem driveAddRoundKey_host : (driveAddRoundKey sIn rk s).host = s.host := rfl
@[simp] theorem driveAddRoundKey_pace : (driveAddRoundKey sIn rk s).pace = s.pace := rfl
@[simp] theorem driveAddRoundKey_gfm : (driveAddRoundKey sIn rk s).wires.gfm = s.wires.gfm := rfl
@[simp] theorem driveAddRoundKey_sbox : (driveAddRoundKey sIn rk s).wires.sbox = s.wires.sbox := rfl
@[simp] theorem driveAddRoundKey_keySchedule : (driveAddRoundKey sIn rk s).wires.keySchedule = s.wires.keySchedule := rfl
@[simp] theorem driveAddRoundKey_subBytes : (driveAddRoundKey sIn rk s).wires.subBytes = s.wires.subBytes := rfl
@[simp] theorem driveAddRoundKey_shiftRows : (driveAddRoundKey sIn rk s).wires.shiftRows = s.wires.shiftRows := rfl
@[simp] theorem driveAddRoundKey_mixColumns : (driveAddRoundKey sIn rk s).wires.mixColumns = s.wires.mixColumns := rfl
@[simp] theorem driveAddRoundKey_addRoundKey : (driveAddRoundKey sIn rk s).wires.addRoundKey = 
    { sIn := sIn, rk := rk, sOut := addRoundKey sIn rk } := rfl

end driveAddRoundKey

section drive

variable (s : State) (p : Pins)

@[simp] theorem State.drive_core : (s.drive p).core = s.core := rfl
@[simp] theorem State.drive_wires : (s.drive p).wires = s.wires := rfl
@[simp] theorem State.drive_pace : (s.drive p).pace = s.pace := rfl
@[simp] theorem State.drive_host : (s.drive p).host = .drive p :: s.host := rfl

end drive

section fetch

variable (s : State)

@[simp] theorem fetch_core : (fetch s).2.core = s.core := rfl
@[simp] theorem fetch_wires : (fetch s).2.wires = s.wires := rfl
@[simp] theorem fetch_pace : (fetch s).2.pace = s.pace := rfl
@[simp] theorem fetch_host : (fetch s).2.host = (nextPins s.core.busy s.host).2 := rfl
@[simp] theorem fetch_pins : (fetch s).1 = (nextPins s.core.busy s.host).1 := rfl

end fetch

section startState

variable (host : List HostAction) (pace : List Nat)

@[simp] theorem startState_core : (startState host pace).core = CoreRegs.reset := rfl
@[simp] theorem startState_wires : (startState host pace).wires = ModuleWires.reset := rfl
@[simp] theorem startState_host : (startState host pace).host = host := rfl
@[simp] theorem startState_pace : (startState host pace).pace = pace := rfl

end startState

end Sys2Proof.Machine
end

