-- ==== Sys2Proof/Laws/Ops.lean ====
section
/-! SUPPORT. What each shared operation can do, said once: the transition of the sequencer, the transitions of
one edge, the edges, and the step; later proofs cite these and do not unfold the operations. -/

namespace Sys2Proof.Machine

/-- Every transition of the sequencer is a step below 40 or the finish at 40. -/
theorem CoreRegs.transition_cases {c c' : CoreRegs} (h : c.transition = .ok c') :
    (∃ hs : c.seq.toNat < 40, c' = c.seqStep hs) ∨ (c.seq.toNat = 40 ∧ c' = c.finish) := by
  unfold CoreRegs.transition at h
  split at h
  · next hs => exact .inl ⟨hs, by simpa using h.symm⟩
  · split at h
    · next he => exact .inr ⟨he, by simpa using h.symm⟩
    · simp at h

theorem CoreRegs.transition_of_lt {c : CoreRegs} (h : c.seq.toNat < 40) :
    c.transition = .ok (c.seqStep h) := by
  simp only [CoreRegs.transition, h, dite_true]

theorem CoreRegs.transition_of_eq {c : CoreRegs} (h : c.seq.toNat = 40) :
    c.transition = .ok c.finish := by
  simp only [CoreRegs.transition, h, lt_irrefl, dite_false, if_true]

theorem CoreRegs.transition_of_gt {c : CoreRegs} (h : 40 < c.seq.toNat) :
    c.transition = .error .seqOutOfRange := by
  have h1 : ¬ c.seq.toNat < 40 := by omega
  have h2 : ¬ c.seq.toNat = 40 := by omega
  simp only [CoreRegs.transition, h1, h2, dite_false, if_false]

@[simp] theorem CoreRegs.advance_zero (c : CoreRegs) : c.advance 0 = .ok c := rfl

theorem CoreRegs.advance_idle {c : CoreRegs} (h : c.fsm = .idle) (n : Nat) : c.advance n = .ok c := by
  cases n <;> simp [CoreRegs.advance, h]

theorem CoreRegs.advance_run {c c' : CoreRegs} (h : c.fsm = .run) (ht : c.transition = .ok c') (n : Nat) :
    c.advance (n + 1) = c'.advance n := by
  simp [CoreRegs.advance, h, ht]

theorem CoreRegs.advance_run_error {c : CoreRegs} {r : Fault} (h : c.fsm = .run) (ht : c.transition = .error r)
    (n : Nat) : c.advance (n + 1) = .error r := by
  simp [CoreRegs.advance, h, ht]

/-- The induction over the transitions of one edge, packaged once: what holds of the registers and is kept by a
step and by the finish of a running core holds after any number of transitions. -/
theorem CoreRegs.advance_induct {P : CoreRegs → Prop}
    (hstep : ∀ (c : CoreRegs) (hs : c.seq.toNat < 40), c.fsm = .run → P c → P (c.seqStep hs))
    (hfinish : ∀ c : CoreRegs, c.fsm = .run → c.seq.toNat = 40 → P c → P c.finish)
    {n : Nat} {c c' : CoreRegs} (h : c.advance n = .ok c') (hc : P c) : P c' := by
  induction n generalizing c with
  | zero =>
    obtain rfl : c = c' := by simpa using h
    exact hc
  | succ n ih =>
    cases hf : c.fsm with
    | idle =>
      obtain rfl : c = c' := by simpa [CoreRegs.advance_idle hf] using h
      exact hc
    | run =>
      cases ht : c.transition with
      | error r => simp [CoreRegs.advance_run_error hf ht] at h
      | ok d =>
        rw [CoreRegs.advance_run hf ht] at h
        rcases CoreRegs.transition_cases ht with ⟨hs, rfl⟩ | ⟨he, rfl⟩
        · exact ih h (hstep c hs hf hc)
        · exact ih h (hfinish c hf he hc)

/-- What an edge in `RUN` does if it answers a next state. -/
theorem runEdge_cases {s t : State} (h : runEdge s = .next t) :
    ∃ c, s.core.advance (nextPace s.pace).1 = .ok c ∧ t = { s with core := c, pace := (nextPace s.pace).2 } := by
  unfold runEdge at h
  split at h
  · next c hc => exact ⟨c, hc, by simpa using h.symm⟩
  · simp at h

theorem runEdge_of_ok {s : State} {c : CoreRegs} (h : s.core.advance (nextPace s.pace).1 = .ok c) :
    runEdge s = .next { s with core := c, pace := (nextPace s.pace).2 } := by
  simp only [runEdge, h]

theorem clockEdge_idle {f : CoreRegs → CoreRegs} {s : State} (h : s.core.fsm = .idle) :
    clockEdge f s = .next { s with core := f s.core } := by
  simp only [clockEdge, h]

/-- In `RUN` an edge looks at no input but `rst` (R169). -/
theorem clockEdge_run {f : CoreRegs → CoreRegs} {s : State} (h : s.core.fsm = .run) :
    clockEdge f s = runEdge s := by
  simp only [clockEdge, h]

/-- What a clock edge does if it answers a next state. -/
theorem clockEdge_cases {f : CoreRegs → CoreRegs} {s t : State} (h : clockEdge f s = .next t) :
    (s.core.fsm = .idle ∧ t = { s with core := f s.core }) ∨
    (s.core.fsm = .run ∧ ∃ c, s.core.advance (nextPace s.pace).1 = .ok c ∧
      t = { s with core := c, pace := (nextPace s.pace).2 }) := by
  cases hf : s.core.fsm with
  | idle =>
    rw [clockEdge_idle hf] at h
    exact .inl ⟨rfl, by simpa using h.symm⟩
  | run =>
    rw [clockEdge_run hf] at h
    exact .inr ⟨rfl, runEdge_cases h⟩

theorem CoreRegs.present_legal {op : BitVec 1} {dataLen keyLen : BitVec 5} {block key : Block} {c : CoreRegs}
    (hd : dataLen = 16) (hk : keyLen = 16) : c.present op dataLen keyLen block key = c.accept op block key := by
  simp [CoreRegs.present, Config.operandBytes, hd, hk]

theorem CoreRegs.present_illegal {op : BitVec 1} {dataLen keyLen : BitVec 5} {block key : Block} {c : CoreRegs}
    (h : ¬ (dataLen = 16 ∧ keyLen = 16)) : c.present op dataLen keyLen block key = c.raiseInvalidLength := by
  simp only [CoreRegs.present, Config.operandBytes, h, if_false]

/-- A presented command is accepted or rejected, and nothing else. -/
theorem CoreRegs.present_cases (op : BitVec 1) (dataLen keyLen : BitVec 5) (block key : Block) (c : CoreRegs) :
    (c.present op dataLen keyLen block key = c.accept op block key) ∨
    (c.present op dataLen keyLen block key = c.raiseInvalidLength) := by
  unfold CoreRegs.present
  split
  · exact .inl rfl
  · exact .inr rfl

@[simp] theorem nextPins_drive (busy : Bool) (p : Pins) (rest : List HostAction) :
    nextPins busy (.drive p :: rest) = (p, rest) := rfl

/-- The host's coming event is the pins it drives. -/
theorem fetch_drive (s : State) (p : Pins) : fetch (s.drive p) = (p, s) := rfl

theorem step_drive (s : State) (p : Pins) :
    step (s.drive p) =
      match decode p with
      | .ok i => exec i s
      | .error .resetAsserted => resetEdge s
      | .error .noCommand => quietEdge s
      | .error .invalidLength => rejectEdge s := rfl

/-- What a step can do if it answers a next state: a register change of `aes_core` at a clock edge (reset, an
edge in `IDLE`, transitions in `RUN`), or new levels on the wires of the other modules with the registers and
paces as they were. -/
theorem step_cases {s t : State} (h : step s = .next t) :
    (t.core = CoreRegs.reset ∧ t.wires = s.wires ∧ t.pace = s.pace) ∨
    (s.core.fsm = .idle ∧ t.wires = s.wires ∧ t.pace = s.pace ∧
      (t.core = s.core ∨ t.core = s.core.raiseInvalidLength ∨
        ∃ op block key, t.core = s.core.accept op block key)) ∨
    (s.core.fsm = .run ∧ t.wires = s.wires ∧ t.pace = (nextPace s.pace).2 ∧
      s.core.advance (nextPace s.pace).1 = .ok t.core) ∨
    (t.core = s.core ∧ t.pace = s.pace ∧ ∃ u : State, u.wires = s.wires ∧
      ((∃ a b, t.wires = (driveGfm a b u).wires) ∨ (∃ inv x, t.wires = (driveSbox inv x u).wires) ∨
       (∃ key, t.wires = (driveKeySchedule key u).wires) ∨
       (∃ inv b, t.wires = (driveSubBytes inv b u).wires) ∨ (∃ inv b, t.wires = (driveShiftRows inv b u).wires) ∨
       (∃ inv b, t.wires = (driveMixColumns inv b u).wires) ∨
       (∃ b rk, t.wires = (driveAddRoundKey b rk u).wires))) := by
  have edge : ∀ {f : CoreRegs → CoreRegs},
      (f s.core = s.core ∨ f s.core = s.core.raiseInvalidLength ∨ ∃ op block key, f s.core = s.core.accept op block key) →
      clockEdge f (fetch s).2 = .next t →
      (s.core.fsm = .idle ∧ t.wires = s.wires ∧ t.pace = s.pace ∧
        (t.core = s.core ∨ t.core = s.core.raiseInvalidLength ∨
          ∃ op block key, t.core = s.core.accept op block key)) ∨
      (s.core.fsm = .run ∧ t.wires = s.wires ∧ t.pace = (nextPace s.pace).2 ∧
        s.core.advance (nextPace s.pace).1 = .ok t.core) := by
    intro f hf he
    rcases clockEdge_cases he with ⟨hi, rfl⟩ | ⟨hr, c, hc, rfl⟩
    · exact .inl ⟨hi, rfl, rfl, hf⟩
    · exact .inr ⟨hr, rfl, rfl, hc⟩
  have cmd : ∀ op dataLen keyLen block key,
      commandEdge op dataLen keyLen block key (fetch s).2 = .next t → _ := fun op dataLen keyLen block key he =>
    edge (f := CoreRegs.present op dataLen keyLen block key)
      (match CoreRegs.present_cases op dataLen keyLen block key s.core with
        | .inl ha => .inr (.inr ⟨op, block, key, ha⟩)
        | .inr hr => .inr (.inl hr)) he
  unfold step at h
  split at h
  · next i _ =>
    cases i <;> simp only [exec, execEncrypt, execDecrypt, execGmult, execSbox, execInvSbox, execExpandKey, execSubBytes, execInvSubBytes,
      execShiftRows, execInvShiftRows, execMixColumns, execInvMixColumns, execAddRoundKey, Host.Outcome.next.injEq] at h
    case gmult a b => exact .inr (.inr (.inr (h ▸ ⟨rfl, rfl, (fetch s).2, rfl, .inl ⟨_, _, rfl⟩⟩)))
    case sbox x => exact .inr (.inr (.inr (h ▸ ⟨rfl, rfl, (fetch s).2, rfl, .inr (.inl ⟨_, _, rfl⟩)⟩)))
    case invSbox x => exact .inr (.inr (.inr (h ▸ ⟨rfl, rfl, (fetch s).2, rfl, .inr (.inl ⟨_, _, rfl⟩)⟩)))
    case expandKey x => exact .inr (.inr (.inr (h ▸ ⟨rfl, rfl, (fetch s).2, rfl, .inr (.inr (.inl ⟨_, rfl⟩))⟩)))
    case subBytes x => exact .inr (.inr (.inr (h ▸ ⟨rfl, rfl, (fetch s).2, rfl, .inr (.inr (.inr (.inl ⟨_, _, rfl⟩)))⟩)))
    case invSubBytes x =>
      exact .inr (.inr (.inr (h ▸ ⟨rfl, rfl, (fetch s).2, rfl, .inr (.inr (.inr (.inl ⟨_, _, rfl⟩)))⟩)))
    case shiftRows x =>
      exact .inr (.inr (.inr (h ▸ ⟨rfl, rfl, (fetch s).2, rfl, .inr (.inr (.inr (.inr (.inl ⟨_, _, rfl⟩))))⟩)))
    case invShiftRows x =>
      exact .inr (.inr (.inr (h ▸ ⟨rfl, rfl, (fetch s).2, rfl, .inr (.inr (.inr (.inr (.inl ⟨_, _, rfl⟩))))⟩)))
    case mixColumns x =>
      exact .inr (.inr (.inr (h ▸ ⟨rfl, rfl, (fetch s).2, rfl, .inr (.inr (.inr (.inr (.inr (.inl ⟨_, _, rfl⟩)))))⟩)))
    case invMixColumns x =>
      exact .inr (.inr (.inr (h ▸ ⟨rfl, rfl, (fetch s).2, rfl, .inr (.inr (.inr (.inr (.inr (.inl ⟨_, _, rfl⟩)))))⟩)))
    case addRoundKey x rk =>
      exact .inr (.inr (.inr (h ▸ ⟨rfl, rfl, (fetch s).2, rfl, .inr (.inr (.inr (.inr (.inr (.inr ⟨_, _, rfl⟩)))))⟩)))
    case encrypt => exact .inr ((cmd _ _ _ _ _ h).imp_right .inl)
    case decrypt => exact .inr ((cmd _ _ _ _ _ h).imp_right .inl)
  · simp only [resetEdge, Host.Outcome.next.injEq] at h
    exact .inl (h ▸ ⟨rfl, rfl, rfl⟩)
  · exact .inr ((edge (.inl rfl) h).imp_right .inl)
  · exact .inr ((edge (.inr (.inl rfl)) h).imp_right .inl)

end Sys2Proof.Machine
end

