-- ==== Sys2Proof/Laws/PerInstr.lean ====
section
/-! SUPPORT. Statements made for every operation. `TableRow`: the pins the encoder gives are those of the
operation's row in spec/opcode_table.json, module and selecting bits. -/

namespace Sys2Proof.Laws.TableRow

/-- An operation's pins belong to its row's module, and their selecting bits match its row (R87, R94, R96). -/
def Statement (i : Instr) : Prop :=
  i.wellFormed = true →
    (encode i).module = (tableRow i).module ∧ (encode i).selectingBits &&& (tableRow i).mask = (tableRow i).value

theorem gmult (a b : Byte) : Statement (.gmult a b) := fun _ => ⟨rfl, by simp [encode, tableRow, Pins.selectingBits]⟩

theorem sbox (x : Byte) : Statement (.sbox x) := fun _ => ⟨rfl, by simp [encode, tableRow, Pins.selectingBits]⟩

theorem invSbox (x : Byte) : Statement (.invSbox x) := fun _ => ⟨rfl, by simp [encode, tableRow, Pins.selectingBits]⟩

theorem expandKey (key : Block) : Statement (.expandKey key) := fun _ => ⟨rfl, by simp [encode, tableRow, Pins.selectingBits]⟩

theorem subBytes (sIn : Block) : Statement (.subBytes sIn) := fun _ => ⟨rfl, by simp [encode, tableRow, Pins.selectingBits]⟩

theorem invSubBytes (sIn : Block) : Statement (.invSubBytes sIn) := fun _ => ⟨rfl, by simp [encode, tableRow, Pins.selectingBits]⟩

theorem shiftRows (sIn : Block) : Statement (.shiftRows sIn) := fun _ => ⟨rfl, by simp [encode, tableRow, Pins.selectingBits]⟩

theorem invShiftRows (sIn : Block) : Statement (.invShiftRows sIn) := fun _ => ⟨rfl, by simp [encode, tableRow, Pins.selectingBits]⟩

theorem mixColumns (sIn : Block) : Statement (.mixColumns sIn) := fun _ => ⟨rfl, by simp [encode, tableRow, Pins.selectingBits]⟩

theorem invMixColumns (sIn : Block) : Statement (.invMixColumns sIn) := fun _ => ⟨rfl, by simp [encode, tableRow, Pins.selectingBits]⟩

theorem addRoundKey (sIn rk : Block) : Statement (.addRoundKey sIn rk) := fun _ => ⟨rfl, by simp [encode, tableRow, Pins.selectingBits]⟩

/-- A legal command's declared lengths are both 16. -/
theorem lengths_of_legal {dataLen keyLen : BitVec 5}
    (h : (legalLength dataLen && legalLength keyLen) = true) : dataLen = 16 ∧ keyLen = 16 := by
  simpa [legalLength, Config.operandBytes] using h

theorem encrypt (dataLen keyLen : BitVec 5) (block key : Block) :
    Statement (.encrypt dataLen keyLen block key) := by
  intro h
  obtain ⟨rfl, rfl⟩ := lengths_of_legal h
  exact ⟨rfl, by simp [encode, presentPins, tableRow, Pins.selectingBits, CorePins.ctrl]⟩

theorem decrypt (dataLen keyLen : BitVec 5) (block key : Block) :
    Statement (.decrypt dataLen keyLen block key) := by
  intro h
  obtain ⟨rfl, rfl⟩ := lengths_of_legal h
  exact ⟨rfl, by simp [encode, presentPins, tableRow, Pins.selectingBits, CorePins.ctrl]⟩

end Sys2Proof.Laws.TableRow
end

