-- ==== Sys2Proof/Laws/Step.lean ====
section
/-! SUPPORT. What a step does, by the event on the pins: one lemma for a clock edge of `aes_core`, one for an
event of another module. -/

namespace Sys2Proof.Machine

/-- A rising edge, in the order in which R173 and R83 look at the inputs. -/
theorem step_of_core {s : State} {p : CorePins} (h : (fetch s).1 = .core p) :
    step s =
      if p.rst = true then resetEdge (fetch s).2
      else clockEdge
        (if p.start = true then CoreRegs.present p.op p.dataLen p.keyLen p.blockIn p.keyIn else fun c => c)
        (fetch s).2 := by
  unfold step
  rw [h]
  simp only [decode]
  cases hr : p.rst with
  | true => simp [decodeCore_reset hr]
  | false =>
    cases hs : p.start with
    | false => simp [decodeCore_quiet hr hs, quietEdge]
    | true =>
      rw [decodeCore_present hr hs]
      by_cases hl : p.dataLen = 16 ∧ p.keyLen = 16
      · rcases bit_cases p.op with ho | ho <;>
          simp [hl.1, hl.2, ho, exec, execEncrypt, execDecrypt, commandEdge]
      · have hp : CoreRegs.present p.op p.dataLen p.keyLen p.blockIn p.keyIn = CoreRegs.raiseInvalidLength :=
          funext fun _ => CoreRegs.present_illegal hl
        simp only [if_neg hl, hp, rejectEdge, if_true, Bool.false_eq_true, if_false]

/-- An event on another module's pins changes wires only. -/
theorem step_of_module {s : State} (h : ∀ p, (fetch s).1 ≠ .core p) :
    ∃ t, step s = .next t ∧ t.core = s.core ∧ t.host = (fetch s).2.host ∧ t.pace = s.pace := by
  unfold step
  cases hp : (fetch s).1 with
  | core p => exact absurd hp (h p)
  | gfm => exact ⟨_, rfl, rfl, rfl, rfl⟩
  | keySchedule => exact ⟨_, rfl, rfl, rfl, rfl⟩
  | addRoundKey => exact ⟨_, rfl, rfl, rfl, rfl⟩
  | sbox inv => rcases bit_cases inv with rfl | rfl <;> exact ⟨_, rfl, rfl, rfl, rfl⟩
  | subBytes inv => rcases bit_cases inv with rfl | rfl <;> exact ⟨_, rfl, rfl, rfl, rfl⟩
  | shiftRows inv => rcases bit_cases inv with rfl | rfl <;> exact ⟨_, rfl, rfl, rfl, rfl⟩
  | mixColumns inv => rcases bit_cases inv with rfl | rfl <;> exact ⟨_, rfl, rfl, rfl, rfl⟩

/-- The actions that a fetch leaves were the host's before. -/
theorem nextPins_rest_mem (busy : Bool) (host : List HostAction) {a : HostAction}
    (h : a ∈ (nextPins busy host).2) : a ∈ host := by
  induction host with
  | nil => exact h
  | cons b rest ih =>
    cases b with
    | drive p => exact List.mem_cons_of_mem _ h
    | wait =>
      cases busy with
      | true => exact h
      | false => exact List.mem_cons_of_mem _ (ih h)

/-- The pins of an event are ones the host drives, or the quiet ones. -/
theorem nextPins_mem_or_quiet (busy : Bool) (host : List HostAction) :
    HostAction.drive (nextPins busy host).1 ∈ host ∨ (nextPins busy host).1 = quietPins := by
  induction host with
  | nil => exact .inr rfl
  | cons b rest ih =>
    cases b with
    | drive p => exact .inl (List.mem_cons_self ..)
    | wait =>
      cases busy with
      | true => exact .inr rfl
      | false => exact ih.imp_left (List.mem_cons_of_mem _)

end Sys2Proof.Machine
end

