-- ==== Sys2Proof/Laws/Safety.lean ====
section
/-! SUPPORT. The small lemmas of the terms that the statements use: the State after some micro-operations, and what
the transitions of one edge keep. -/

namespace Sys2Proof.Machine

@[simp] theorem stateAfter_zero (op : BitVec 1) (block : Block) (rks : RoundKeys) :
    stateAfter op 0 block rks = block := rfl

/-- One micro-operation more. -/
theorem stateAfter_succ {op : BitVec 1} {n : Nat} (h : n < 40) (block : Block) (rks : RoundKeys) :
    stateAfter op (n + 1) block rks = applyMicroOp (microSequence op)[n] (stateAfter op n block rks) rks := by
  have hn : n < (microSequence op).toList.length := by simpa using h
  have hg : (microSequence op).toList[n] = (microSequence op)[n] := by simp
  simp only [stateAfter, List.take_succ_eq_append_getElem hn, List.foldl_append, List.foldl_cons, List.foldl_nil, hg]

@[simp] theorem stateAfterNext_zero (op : BitVec 1) (n : Nat) (S : Block) (rks : RoundKeys) :
    stateAfterNext op n 0 S rks = S := rfl

/-- The first of the micro-operations from place `n` on, then the rest. -/
theorem stateAfterNext_succ {op : BitVec 1} {n : Nat} (h : n < 40) (k : Nat) (S : Block) (rks : RoundKeys) :
    stateAfterNext op n (k + 1) S rks =
      stateAfterNext op (n + 1) k (applyMicroOp (microSequence op)[n] S rks) rks := by
  have hn : n < (microSequence op).toList.length := by simpa using h
  have hg : (microSequence op).toList[n] = (microSequence op)[n] := by simp
  simp only [stateAfterNext, List.drop_eq_getElem_cons hn, List.take_succ_cons, List.foldl_cons, hg]

/-- Past the end of the sequence nothing is left. -/
@[simp] theorem stateAfterNext_end (op : BitVec 1) (k : Nat) (S : Block) (rks : RoundKeys) :
    stateAfterNext op 40 k S rks = S := by
  have h : (microSequence op).toList.drop 40 = [] := List.drop_eq_nil_of_le (by simp)
  simp only [stateAfterNext, h, List.take_nil, List.foldl_nil]

/-- A step transition below 40 does not wrap the counter. -/
theorem CoreRegs.seqStep_seq_toNat {c : CoreRegs} (h : c.seq.toNat < 40) :
    (c.seqStep h).seq.toNat = c.seq.toNat + 1 := by
  show (c.seq + 1).toNat = _
  rw [BitVec.toNat_add, show (1 : BitVec 6).toNat = 1 from rfl]
  omega

/-- What no transition changes, and what stays while the command runs. -/
theorem CoreRegs.advance_keeps {n : Nat} {c c' : CoreRegs} (h : c.advance n = .ok c') :
    c'.err = c.err ∧ c'.opQ = c.opQ ∧ (c'.fsm = .run → c'.rks = c.rks ∧ c'.done = c.done ∧ c'.blockOut = c.blockOut) :=
  CoreRegs.advance_induct
    (P := fun d => d.err = c.err ∧ d.opQ = c.opQ ∧
      (d.fsm = .run → d.rks = c.rks ∧ d.done = c.done ∧ d.blockOut = c.blockOut))
    (fun _ _ _ hd => hd) (fun _ _ _ hd => ⟨hd.1, hd.2.1, fun hf => by simp [CoreRegs.finish] at hf⟩) h
    ⟨rfl, rfl, fun _ => ⟨rfl, rfl, rfl⟩⟩

end Sys2Proof.Machine
end

