-- ==== Sys2Proof/Tests/Slice0.lean ====
section
/-! SUPPORT. Tests of the model and witnesses of the statements. Expected values are the spec's own: the tables
of 30_encoding.md and the vectors of 95_test_vectors.md, each named in its comment. -/

namespace Sys2Proof.Tests

open Sys2Proof.Machine

/-! ## Well-formedness: each check refuses an ill-formed term (R88) -/

theorem test_encrypt_data_len_15_is_ill_formed (b k : Block) : (Instr.encrypt 15 16 b k).wellFormed = false := rfl
theorem test_encrypt_key_len_17_is_ill_formed (b k : Block) : (Instr.encrypt 16 17 b k).wellFormed = false := rfl
theorem test_decrypt_data_len_0_is_ill_formed (b k : Block) : (Instr.decrypt 0 16 b k).wellFormed = false := rfl
theorem test_decrypt_key_len_31_is_ill_formed (b k : Block) : (Instr.decrypt 16 31 b k).wellFormed = false := rfl
theorem test_encrypt_16_16_is_well_formed (b k : Block) : (Instr.encrypt 16 16 b k).wellFormed = true := rfl

/-! ## Decoding, one word for each constructor -/

/-- The input ports of `aes_core` at an edge with `rst = 0`, `start = 1` and the eleven control bits
`op data_len key_len` written out. -/
def ports (op : BitVec 1) (dataLen keyLen : BitVec 5) : CorePins where
  rst := false
  start := true
  op := op
  dataLen := dataLen
  keyLen := keyLen
  blockIn := 0
  keyIn := 0

/-- R87: `0 10000 10000`. -/
theorem test_decode_encrypt : decode (.core (ports 0b0 0b10000 0b10000)) = .ok (.encrypt 16 16 0 0) := by decide
/-- R87: `1 10000 10000`. -/
theorem test_decode_decrypt : decode (.core (ports 0b1 0b10000 0b10000)) = .ok (.decrypt 16 16 0 0) := by decide
/-- R86: the bits of ENCRYPT are `0x210`, those of DECRYPT `0x610`. -/
theorem test_ctrl_bits : (ports 0b0 0b10000 0b10000).ctrl = 0x210 ∧ (ports 0b1 0b10000 0b10000).ctrl = 0x610 := by
  decide
/-- V-ERR1: `1f0` and `211`. -/
theorem test_decode_illegal_lengths :
    decode (.core (ports 0b0 0b01111 0b10000)) = .error .invalidLength ∧
    decode (.core (ports 0b0 0b10000 0b10001)) = .error .invalidLength := by decide
/-- R94: `inv` of `aes_sbox`. -/
theorem test_decode_sbox : decode (.sbox 0b0 0x53) = .ok (.sbox 0x53) := by decide
theorem test_decode_invSbox : decode (.sbox 0b1 0xed) = .ok (.invSbox 0xed) := by decide
/-- R94: `inv` of the three stages. -/
theorem test_decode_subBytes : decode (.subBytes 0b0 7) = .ok (.subBytes 7) := by decide
theorem test_decode_invSubBytes : decode (.subBytes 0b1 7) = .ok (.invSubBytes 7) := by decide
theorem test_decode_shiftRows : decode (.shiftRows 0b0 7) = .ok (.shiftRows 7) := by decide
theorem test_decode_invShiftRows : decode (.shiftRows 0b1 7) = .ok (.invShiftRows 7) := by decide
theorem test_decode_mixColumns : decode (.mixColumns 0b0 7) = .ok (.mixColumns 7) := by decide
theorem test_decode_invMixColumns : decode (.mixColumns 0b1 7) = .ok (.invMixColumns 7) := by decide
/-- R89, R92, R93: no selecting bits. -/
theorem test_decode_gmult : decode (.gfm 0x57 0x13) = .ok (.gmult 0x57 0x13) := by decide
theorem test_decode_expandKey : decode (.keySchedule 5) = .ok (.expandKey 5) := by decide
theorem test_decode_addRoundKey : decode (.addRoundKey 5 6) = .ok (.addRoundKey 5 6) := by decide
/-- The table's numbering: ENCRYPT and DECRYPT words, SBOX and INVSBOX words, and a word that is no row. -/
theorem test_decode_table_words :
    decodeTableWord 16 0x210 = some (.encrypt 16 16 0 0) ∧ decodeTableWord 16 0x610 = some (.decrypt 16 16 0 0) ∧
    decodeTableWord 8 0 = some (.sbox 0) ∧ decodeTableWord 8 1 = some (.invSbox 0) ∧
    decodeTableWord 0 0 = some (.gmult 0 0) ∧ decodeTableWord 16 0x1f0 = none := by decide

/-! ## Small states and the parts of a result -/

/-- A state whose core registers are `c` and whose host does `host` next. -/
def stateOf (c : CoreRegs) (host : List HostAction) (pace : List Nat) : State where
  core := c
  wires := ModuleWires.reset
  host := host
  pace := pace

/-- Running registers at place `seq` of ENCRYPT (`op = 0`) or DECRYPT (`op = 1`), `state` and `rks` zero. -/
def running (op : BitVec 1) (seq : BitVec 6) : CoreRegs := { CoreRegs.reset with fsm := .run, opQ := op, seq := seq }

/-- A core in `IDLE` that shows a result. -/
def finished : CoreRegs := { CoreRegs.reset with done := true, blockOut := 5 }

/-- A core in `IDLE` that shows InvalidLength. -/
def refusedBefore : CoreRegs := { CoreRegs.reset with err := true }

/-- The registers of a next state, `none` at a stop. -/
def coreOf : Host.Outcome State Fault Refusal → Option CoreRegs
  | .next s => some s.core
  | _ => none

/-- The wires of a next state, `none` at a stop. -/
def wiresOf : Host.Outcome State Fault Refusal → Option ModuleWires
  | .next s => some s.wires
  | _ => none

/-- The pins of a host that asks nothing. -/
def noCommandPins : CorePins :=
  { rst := false, start := false, op := 0, dataLen := 0, keyLen := 0, blockIn := 0, keyIn := 0 }

/-! ## One step of each operation -/

/-- V-GM1: `57 13` gives `fe`, `80 80` gives `9a`. -/
theorem test_exec_gmult :
    (wiresOf (exec (.gmult 0x57 0x13) State.reset)).map (·.gfm.p) = some 0xfe ∧
    (wiresOf (exec (.gmult 0x80 0x80) State.reset)).map (·.gfm.p) = some 0x9a := by decide +kernel
/-- V-SB1: `53` gives `ed`, `ff` gives `16`. -/
theorem test_exec_sbox :
    (wiresOf (exec (.sbox 0x53) State.reset)).map (·.sbox.y) = some 0xed ∧
    (wiresOf (exec (.sbox 0xff) State.reset)).map (·.sbox.y) = some 0x16 := by decide +kernel
/-- V-SB1: `53` gives `50`, `ff` gives `7d`. -/
theorem test_exec_invSbox :
    (wiresOf (exec (.invSbox 0x53) State.reset)).map (·.sbox.y) = some 0x50 ∧
    (wiresOf (exec (.invSbox 0xff) State.reset)).map (·.sbox.y) = some 0x7d := by decide +kernel
/-- V-KS1: `rk[1]` and `rk[10]`, on their places of `rk_flat`. -/
theorem test_exec_expandKey :
    ((wiresOf (exec (.expandKey 0x2b7e151628aed2a6abf7158809cf4f3c) State.reset)).map
        fun w => (w.keySchedule.rkFlat.extractLsb' 1152 128, w.keySchedule.rkFlat.extractLsb' 0 128)) =
      some (0xa0fafe1788542cb123a339392a6c7605, 0xd014f9a8c9ee2589e13f0cc8b6630ca6) := by decide +kernel
/-- V-KS2: `rk[10]` of the all-zero key. -/
theorem test_expandKey_zero : (expandKey 0)[10] = 0xb4ef5bcb3e92e21123e951cf6f8f188e := by decide +kernel
/-- V-SUB1. -/
theorem test_exec_subBytes :
    (wiresOf (exec (.subBytes 0x000102030405060708090a0b0c0d0e0f) State.reset)).map (·.subBytes.sOut) =
      some 0x637c777bf26b6fc53001672bfed7ab76 := by decide +kernel
theorem test_exec_invSubBytes :
    (wiresOf (exec (.invSubBytes 0x000102030405060708090a0b0c0d0e0f) State.reset)).map (·.subBytes.sOut) =
      some 0x52096ad53036a538bf40a39e81f3d7fb := by decide +kernel
/-- V-SHR1. -/
theorem test_exec_shiftRows :
    (wiresOf (exec (.shiftRows 0xd42711aee0bf98f1b8b45de51e415230) State.reset)).map (·.shiftRows.sOut) =
      some 0xd4bf5d30e0b452aeb84111f11e2798e5 := by decide +kernel
theorem test_exec_invShiftRows :
    (wiresOf (exec (.invShiftRows 0x00050a0f04090e03080d02070c01060b) State.reset)).map (·.shiftRows.sOut) =
      some 0x000102030405060708090a0b0c0d0e0f := by decide +kernel
/-- V-MIX2. -/
theorem test_exec_mixColumns :
    (wiresOf (exec (.mixColumns 0x000102030405060708090a0b0c0d0e0f) State.reset)).map (·.mixColumns.sOut) =
      some 0x02070005060304010a0f080d0e0b0c09 := by decide +kernel
theorem test_exec_invMixColumns :
    (wiresOf (exec (.invMixColumns 0x000102030405060708090a0b0c0d0e0f) State.reset)).map (·.mixColumns.sOut) =
      some 0x0a0f080d0e0b0c090207000506030401 := by decide +kernel
/-- V-ARK1, last row. -/
theorem test_exec_addRoundKey :
    (wiresOf (exec (.addRoundKey 0xffffffffffffffffffffffffffffffff 0x0123456789abcdeffedcba9876543210)
        State.reset)).map (·.addRoundKey.sOut) = some 0xfedcba98765432100123456789abcdef := by decide +kernel
/-- P1, edge 1: `fsm=RUN op_q=0 seq=0`, `status=001`; P4, edge 6: a step of it is row `seq = 0` of V-ENC1. -/
theorem test_exec_encrypt :
    (coreOf (exec (.encrypt 16 16 0x3243f6a8885a308d313198a2e0370734 0x2b7e151628aed2a6abf7158809cf4f3c)
        State.reset)).map (fun c => (c.fsm, c.opQ, c.seq, c.state, c.rks[10], c.status)) =
      some (.run, 0, 0, 0x3243f6a8885a308d313198a2e0370734, 0xd014f9a8c9ee2589e13f0cc8b6630ca6, 0b001) := by
  decide +kernel
theorem test_exec_decrypt :
    (coreOf (exec (.decrypt 16 16 0x3925841d02dc09fbdc118597196a0b32 0x2b7e151628aed2a6abf7158809cf4f3c)
        State.reset)).map (fun c => (c.fsm, c.opQ, c.seq, c.state, c.rks[1], c.status)) =
      some (.run, 1, 0, 0x3925841d02dc09fbdc118597196a0b32, 0xa0fafe1788542cb123a339392a6c7605, 0b001) := by
  decide +kernel
/-- V-ERR1, `20f` and `7ff`: InvalidLength, outputs 0 0 1 0; the second where the core showed a result. -/
theorem test_exec_invalid_length :
    (coreOf (exec (.encrypt 16 15 9 9) State.reset)).map (·.outputs) = some ⟨false, false, true, 0⟩ ∧
    (coreOf (exec (.decrypt 31 31 9 9) (stateOf finished [] []))).map (·.outputs) =
      some ⟨false, false, true, 0⟩ := by decide +kernel

/-! ## Steps of the sequencer -/

/-- V-ENC1 rows 3 and 4 and V-DEC1 rows 3 and 4, with `rk[1]` and `rk[9]` of V-KS1. -/
theorem test_micro_ops :
    applyMicroOp UENC[3] 0xd4bf5d30e0b452aeb84111f11e2798e5 (Vector.replicate 11 0) =
      0x046681e5e0cb199a48f8d37a2806264c ∧
    applyMicroOp UENC[4] 0x046681e5e0cb199a48f8d37a2806264c
      (Vector.replicate 11 0xa0fafe1788542cb123a339392a6c7605) = 0xa49c7ff2689f352b6b5bea43026a5049 ∧
    applyMicroOp UDEC[3] 0xeb40f21e592e38848ba113e71bc342d2
      (Vector.replicate 11 0xac7766f319fadc2128d12941575c006e) = 0x473794ed40d4e4a5a3703aa64c9f42bc ∧
    applyMicroOp UDEC[4] 0x473794ed40d4e4a5a3703aa64c9f42bc (Vector.replicate 11 0) =
      0x876e46a6f24ce78c4d904ad897ecc395 := by decide +kernel
/-- R173 line 1 against line 3, V-HS1: `rst` and `start` together is reset only. -/
theorem test_reset_wins :
    coreOf (step ((stateOf finished [] []).drive (.core { ports 0 16 16 with rst := true }))) =
      some CoreRegs.reset := by decide +kernel
/-- V-HS1: `start = 1` with `ctrl = 1f0` in `RUN` is ignored. -/
theorem test_busy_ignores_illegal_length :
    coreOf (step ((stateOf (running 0 39) [] []).drive (.core (ports 0 15 16)))) =
      some { running 0 40 with state := 0 } := by decide +kernel
/-- R177: the finish, after which `op_q` keeps its value. -/
theorem test_finish :
    (coreOf (step (stateOf { running 1 40 with state := 5 } [] []))) =
      some { finished with opQ := 1 } := by decide +kernel
/-- V-ENC1 rows 1 and 2: one edge that takes two transitions (R173). -/
theorem test_two_transitions_at_one_edge :
    (coreOf (step (stateOf { running 0 1 with state := 0x193de3bea0f4e22b9ac68d2ae9f84808 } [] [2]))).map
      (fun c => (c.seq, c.state)) = some (3, 0xd4bf5d30e0b452aeb84111f11e2798e5) := by decide +kernel
/-- The finish ends the transitions of its edge (R173). -/
theorem test_pace : (coreOf (step (stateOf (running 1 40) [] [9]))).map (·.outputs) =
    some ⟨false, true, false, 0⟩ := by decide +kernel

/-! ## Witnesses: for each statement with hypotheses, a concrete case that meets them all -/

theorem witness_DecodeAndEncodeAgree :
    decode (.core (ports 0 16 16)) = .ok (.encrypt 16 16 0 0) ∧ decode (.sbox 1 3) = .ok (.invSbox 3) := by decide
theorem witness_ExactlyTwoControlWordsSelectAnOperation :
    ((ports 0 16 16).rst = false ∧ (ports 0 16 16).start = true ∧ (ports 0 16 16).ctrl &&& 0x7FF = 0x210) ∧
    ((ports 1 16 16).rst = false ∧ (ports 1 16 16).start = true ∧ (ports 1 16 16).ctrl &&& 0x7FF = 0x610) ∧
    ((ports 1 16 17).rst = false ∧ (ports 1 16 17).start = true ∧
      (ports 1 16 17).ctrl ≠ 0x210 ∧ (ports 1 16 17).ctrl ≠ 0x610) := by decide
theorem witness_GmultFieldLaws : gmult 0 0x57 = 0 ∧ gmult 0x57 0 = 0 := by decide +kernel
/-- V-GM1: `53` and `ca` are an inverse pair. -/
theorem witness_SboxIsTheAffineInverse :
    (((0 : Byte) = 0 ∧ (0 : Byte) = 0) ∨ ((0 : Byte) ≠ 0 ∧ gmult 0 0 = 1)) ∧
    (((0x53 : Byte) = 0 ∧ (0xca : Byte) = 0) ∨ ((0x53 : Byte) ≠ 0 ∧ gmult 0x53 0xca = 1)) := by decide +kernel
theorem witness_KeyScheduleWordRecurrence :
    (0 < 4 ∧ 3 < 4) ∧ (4 ≤ 4 ∧ 4 < 44 ∧ 4 % 4 = 0) ∧ (4 ≤ 5 ∧ 5 < 44 ∧ ¬ 5 % 4 = 0) ∧
    (4 ≤ 40 ∧ 40 < 44 ∧ 40 % 4 = 0) ∧ (4 ≤ 43 ∧ 43 < 44 ∧ ¬ 43 % 4 = 0) := by decide
/-- V-SHR1: equal columns. -/
theorem witness_ShiftRowsEqualColumns :
    ∀ r c d : Fin 4, cellOf 0xaabbccddaabbccddaabbccddaabbccdd r c =
      cellOf 0xaabbccddaabbccddaabbccddaabbccdd r d := by decide +kernel
/-- V-MIX1: a column of four equal bytes. -/
theorem witness_MixColumnsEqualBytes :
    cellOf 0xc6c6c6c6000000000000000000000000 0 0 = cellOf 0xc6c6c6c6000000000000000000000000 1 0 ∧
    cellOf 0xc6c6c6c6000000000000000000000000 1 0 = cellOf 0xc6c6c6c6000000000000000000000000 2 0 ∧
    cellOf 0xc6c6c6c6000000000000000000000000 2 0 = cellOf 0xc6c6c6c6000000000000000000000000 3 0 := by
  decide +kernel
theorem witness_AddRoundKeyXorsTheRoundKey : ((0 : Block) = 0) ∧ ((7 : Block) = 7) := by decide
theorem witness_MicroSequenceRounds :
    (1 ≤ (1 : Fin 11).val ∧ (1 : Fin 11).val ≤ 9) ∧ (1 ≤ (9 : Fin 11).val ∧ (9 : Fin 11).val ≤ 9) := by decide
theorem witness_StepRunsTheDecodedOperation :
    decode (fetch (State.reset.drive (presentPins 1 16 16 0 0))).1 = .ok (.decrypt 16 16 0 0) ∧
    decode (fetch (State.reset.drive (.gfm 1 2))).1 = .ok (.gmult 1 2) := by decide
/-- Two WAITs before the pins of a command, in a state that is not busy. -/
theorem witness_StepPassesWaits :
    decode (presentPins 0 16 16 0 0) = .ok (.encrypt 16 16 0 0) ∧ State.reset.core.busy = false ∧
    (coreOf (step (stateOf CoreRegs.reset [.wait, .wait, .drive (presentPins 0 16 16 0 0)] []))).map (·.fsm) =
      some .run := by decide +kernel
theorem witness_LegalCommandIsAccepted :
    State.reset.core.fsm = .idle ∧ (stateOf finished [] []).core.fsm = .idle := by decide
theorem witness_IllegalLengthRaisesInvalidLength :
    State.reset.core.fsm = .idle ∧ ((15 : BitVec 5) ≠ 16 ∨ (16 : BitVec 5) ≠ 16) ∧
    ((16 : BitVec 5) ≠ 16 ∨ (17 : BitVec 5) ≠ 16) ∧ ((31 : BitVec 5) ≠ 16 ∨ (0 : BitVec 5) ≠ 16) := by decide
theorem witness_BusyIgnoresEveryInputButReset :
    (stateOf (running 0 0) [] []).core.fsm = .run ∧ (ports 0 15 16).rst = false := by decide
theorem witness_InputsCountOnlyWhenSampled :
    (∃ p q : CorePins, p ≠ q ∧ p.rst = q.rst ∧ p.rst = true) ∧
    (∃ (s : State) (p q : CorePins), p ≠ q ∧ p.rst = q.rst ∧ s.core.fsm = .run) ∧
    (∃ p q : CorePins, p ≠ q ∧ p.rst = q.rst ∧ p.start = q.start ∧ p.start = false) ∧
    (∃ p q : CorePins, p ≠ q ∧ p.rst = q.rst ∧ p.start = q.start ∧
      (p.op = q.op ∧ p.dataLen = q.dataLen ∧ p.keyLen = q.keyLen ∧ p.dataLen ≠ 16)) :=
  ⟨⟨{ noCommandPins with rst := true }, { noCommandPins with rst := true, start := true }, by decide⟩,
   ⟨stateOf (running 0 0) [] [], noCommandPins, ports 0 16 16, by decide⟩,
   ⟨noCommandPins, { noCommandPins with op := 1 }, by decide⟩,
   ⟨ports 0 15 16, { ports 0 15 16 with keyIn := 1 }, by decide⟩⟩
theorem witness_ResetEdgeClearsEveryRegister : ({ ports 0 16 16 with rst := true } : CorePins).rst = true := rfl
theorem witness_IdleWithoutStartHolds :
    noCommandPins.rst = false ∧ noCommandPins.start = false ∧ (stateOf finished [] []).core.fsm = .idle := by decide
theorem witness_SequencerStepAppliesOneMicroOp :
    ((stateOf (running 0 0) [] []).core.seq.toNat < 40 ∧ (stateOf (running 0 0) [] []).core.fsm = .run ∧
      (nextPace (stateOf (running 0 0) [] []).pace).1 = 1) ∧
    ((stateOf (running 1 39) [] [1]).core.seq.toNat < 40 ∧ (stateOf (running 1 39) [] [1]).core.fsm = .run ∧
      (nextPace (stateOf (running 1 39) [] [1]).pace).1 = 1) := by decide
theorem witness_SequencerFinishPublishesTheResult :
    (stateOf (running 1 40) [] [1]).core.seq.toNat = 40 ∧ (stateOf (running 1 40) [] [1]).core.fsm = .run ∧
      (nextPace (stateOf (running 1 40) [] [1]).pace).1 = 1 := by decide
/-- Paces for each clause: a hold, transitions up to place 40, and one more with the finish. -/
theorem witness_RunningEdgeTakesAsManyTransitionsAsItsPace :
    (stateOf (running 0 3) [] [0]).core.fsm = .run ∧ (nextPace (stateOf (running 0 3) [] [0]).pace).1 = 0 ∧
    ((running 0 3).advance 0 = .ok (running 0 3)) ∧ (running 0 3).seq.toNat + 37 ≤ 40 ∧
    (running 0 40).seq.toNat + 0 ≤ 40 ∧
    ((running 0 3).seq.toNat ≤ 40 ∧ 40 < (running 0 3).seq.toNat + 38) ∧
    ((running 1 40).seq.toNat ≤ 40 ∧ 40 < (running 1 40).seq.toNat + 1) ∧
    (nextPace (stateOf (running 0 3) [] [37, 38]).pace).1 = 37 ∧ (nextPace [38]).1 = 38 := by decide
theorem witness_AcceptedCommandComputesItsResult :
    State.reset.core.fsm = .idle ∧ (0 ≤ 40 ∧ 40 ≤ 40) := by decide
/-- A host that goes on presenting while the core is busy, and waits, but never resets. -/
theorem witness_EveryPaceReachesTheResponse :
    (stateOf finished [.drive (.core (ports 1 15 16)), .wait, .drive (.gfm 1 2)] [0, 3, 50]).core.fsm = .idle ∧
    NeverResets (stateOf finished [.drive (.core (ports 1 15 16)), .wait, .drive (.gfm 1 2)] [0, 3, 50]).host := by
  refine ⟨rfl, fun p hp => ?_⟩
  simp only [stateOf, List.mem_cons, HostAction.drive.injEq, Pins.core.injEq, reduceCtorEq, List.not_mem_nil,
    or_false] at hp
  exact hp ▸ rfl
theorem witness_ReferenceLatencyIsFortyOne :
    State.reset.core.fsm = .idle ∧ State.reset.host = [] ∧ State.reset.pace = [] := by decide
theorem witness_ResponseIsStateless :
    State.reset.core.fsm = .idle ∧ (stateOf refusedBefore [] []).core.fsm = .idle ∧
    State.reset ≠ stateOf refusedBefore [] [] := by decide +kernel
theorem witness_Reachable : Reachable State.reset ∧ Reachable (startState [.wait] [2]) :=
  ⟨⟨[], [], 0, rfl⟩, ⟨[.wait], [2], 0, rfl⟩⟩
/-- Parts 2 and 3 of the reachability statement: an acceptance, and a hold of the running command after it. -/
theorem witness_ReachableStatesMeetTheInvariants :
    ∃ s a t : State, s.core.fsm = .idle ∧ exec (.encrypt 16 16 3 4) s = .next a ∧ a.core.fsm = .run ∧
      a.core.Runs 3 4 ∧ step a = .next t ∧ t.core.fsm = .run :=
  ⟨stateOf CoreRegs.reset [] [0], stateOf (CoreRegs.reset.accept 0 3 4) [] [0],
    stateOf (CoreRegs.reset.accept 0 3 4) [] [], rfl, rfl, rfl, ⟨rfl, rfl⟩, rfl, rfl⟩
/-- The invariants together with a step, in a running state. -/
theorem witness_StepKeepsTheInvariants :
    ∃ s t : State, s.core.fsm = .run ∧ (s.core.WellFormed ∧ s.core.TracksItsCommand) ∧ step s = .next t :=
  ⟨stateOf (CoreRegs.reset.accept 1 3 4) [] [0], stateOf (CoreRegs.reset.accept 1 3 4) [] [], rfl,
    ⟨by decide +kernel, fun _ => ⟨3, 4, rfl, rfl⟩⟩, rfl⟩
theorem witness_StepKeepsTheWiresSettled :
    ∃ t : State, State.reset.wires.Settled ∧ step (State.reset.drive (.gfm 0x57 0x13)) = .next t :=
  ⟨_, by decide +kernel, rfl⟩
theorem witness_finished_wellFormed : finished.WellFormed := by decide +kernel
theorem witness_refusedBefore_wellFormed : refusedBefore.WellFormed := by decide +kernel
theorem witness_running_wellFormed : (running 0 40).WellFormed := by decide +kernel
theorem witness_reset_wellFormed : CoreRegs.reset.WellFormed := by decide +kernel
/-- The four status words of R30, in well-formed registers. -/
theorem witness_OnlyFourStatusWords :
    (CoreRegs.reset.WellFormed ∧ CoreRegs.reset.status = 0b000) ∧
    ((running 0 40).WellFormed ∧ (running 0 40).status = 0b001) ∧
    (finished.WellFormed ∧ finished.status = 0b010) ∧
    (refusedBefore.WellFormed ∧ refusedBefore.status = 0b100) :=
  ⟨⟨witness_reset_wellFormed, rfl⟩, ⟨witness_running_wellFormed, rfl⟩, ⟨witness_finished_wellFormed, rfl⟩,
   ⟨witness_refusedBefore_wellFormed, rfl⟩⟩
theorem witness_NoStepStops :
    (stateOf (running 0 40) [] []).core.WellFormed ∧ (stateOf (running 1 0) [] []).core.WellFormed := by
  decide +kernel
theorem witness_SequencerBeyondFortyFaults :
    (stateOf (running 0 41) [] []).core.fsm = .run ∧ 40 < (stateOf (running 0 41) [] []).core.seq.toNat ∧
    1 ≤ (nextPace (stateOf (running 0 41) [] []).pace).1 ∧ 40 < (running 0 63).seq.toNat := by decide
/-- One step for each of the four changes of `done` and `err`, from well-formed registers. -/
theorem witness_OnlyTheirEventsChangeDoneAndErr :
    (finished.WellFormed ∧ finished.done = true ∧
      (coreOf (step (stateOf finished [.drive (.core (ports 0 16 16))] []))).map (·.done) = some false) ∧
    ((running 0 40).WellFormed ∧ (running 0 40).done = false ∧
      (coreOf (step (stateOf (running 0 40) [] []))).map (·.done) = some true) ∧
    (CoreRegs.reset.WellFormed ∧ CoreRegs.reset.err = false ∧
      (coreOf (step (stateOf CoreRegs.reset [.drive (.core (ports 0 16 17))] []))).map (·.err) = some true) ∧
    (refusedBefore.WellFormed ∧ refusedBefore.err = true ∧
      (coreOf (step (stateOf refusedBefore [.drive (.core (ports 0 16 16))] []))).map (·.err) = some false) :=
  ⟨⟨witness_finished_wellFormed, rfl, by decide +kernel⟩, ⟨witness_running_wellFormed, rfl, by decide +kernel⟩,
   ⟨witness_reset_wellFormed, rfl, by decide +kernel⟩, ⟨witness_refusedBefore_wellFormed, rfl, by decide +kernel⟩⟩
theorem witness_OnlyAcceptanceLeavesIdle :
    State.reset.core.fsm = .idle ∧
    (coreOf (step (State.reset.drive (.core (ports 0 16 16))))).map (·.fsm) = some .run := by decide +kernel
/-- A host that ties both lengths to 16, and its first command. -/
theorem witness_TiedLengthsNeverRaiseInvalidLength :
    ∃ s t : State,
      (∀ p : CorePins, HostAction.drive (.core p) ∈ s.host → p.dataLen = 16 ∧ p.keyLen = 16) ∧
      s.core.err = false ∧ step s = .next t ∧ (fetch s).1 = .core (ports 1 16 16) ∧ s.core.fsm = .idle := by
  refine ⟨State.reset.drive (.core (ports 1 16 16)), _, fun p hp => ?_, rfl, rfl, rfl, rfl⟩
  simp only [State.drive, State.reset, List.mem_cons, HostAction.drive.injEq, Pins.core.injEq, List.not_mem_nil,
    or_false] at hp
  exact hp ▸ ⟨rfl, rfl⟩
theorem witness_CoreAndModulesDoNotInterfere :
    (∃ t, exec (.encrypt 16 16 3 4) State.reset = .next t) ∧ (encode (.gmult 1 2)).module ≠ .aesCore :=
  ⟨⟨_, rfl⟩, by decide⟩
theorem witness_WaitHoldsTheHostUntilIdle :
    (stateOf (running 0 0) [.wait] []).core.busy = true ∧ State.reset.core.busy = false := by decide

end Sys2Proof.Tests
end

section
/-! Encodings, the drives of single modules, and the inputs that an edge looks at: the decoder's answers by
control word and by mode input, what driving a module makes of the state, and a clock edge as a function of the
sampled inputs; from these the statements about them. -/

namespace Sys2Proof

/-! ## What the decoder answers -/

/-- The mode input read without its mask (R94). -/
theorem decodeMode_eq (inv : BitVec 1) (forward inverse : Instr) :
    decodeMode inv forward inverse = if inv = 0 then forward else inverse := by
  rcases bit_cases inv with rfl | rfl <;> rfl

theorem ctrl_eq_encrypt_iff (p : CorePins) : p.ctrl = 0x210 ↔ p.op = 0 ∧ p.dataLen = 16 ∧ p.keyLen = 16 :=
  ctrl_eq_iff p 0x210

theorem ctrl_eq_decrypt_iff (p : CorePins) : p.ctrl = 0x610 ↔ p.op = 1 ∧ p.dataLen = 16 ∧ p.keyLen = 16 :=
  ctrl_eq_iff p 0x610

theorem decode_core_encrypt {p : CorePins} (hr : p.rst = false) (hs : p.start = true) (hc : p.ctrl = 0x210) :
    decode (.core p) = .ok (.encrypt 16 16 p.blockIn p.keyIn) := by
  obtain ⟨hop, hdata, hkey⟩ := (ctrl_eq_encrypt_iff p).mp hc
  simp [decode, decodeCore_present hr hs, hop, hdata, hkey]

theorem decode_core_decrypt {p : CorePins} (hr : p.rst = false) (hs : p.start = true) (hc : p.ctrl = 0x610) :
    decode (.core p) = .ok (.decrypt 16 16 p.blockIn p.keyIn) := by
  obtain ⟨hop, hdata, hkey⟩ := (ctrl_eq_decrypt_iff p).mp hc
  simp [decode, decodeCore_present hr hs, hop, hdata, hkey]

/-- A control word that selects an operation is one of the two of R87. -/
theorem ctrl_of_decode_core_ok {p : CorePins} {i : Instr} (h : decode (.core p) = .ok i) :
    p.ctrl = 0x210 ∨ p.ctrl = 0x610 := by
  obtain ⟨-, -, hdata, hkey, ⟨hop, -⟩ | ⟨hop, -⟩⟩ := decodeCore_ok h
  · exact .inl ((ctrl_eq_encrypt_iff p).mpr ⟨hop, hdata, hkey⟩)
  · exact .inr ((ctrl_eq_decrypt_iff p).mpr ⟨hop, hdata, hkey⟩)

/-- Settles O2: the two words decode to their commands, and an operation read back from the pins determines all
three fields of the control word. -/
theorem exactlyTwoControlWordsSelectAnOperation : Obligations.ExactlyTwoControlWordsSelectAnOperation := by
  refine ⟨fun p hr hs => ⟨fun hc => ?_, fun hc => ?_, fun hEnc hDec i hi => ?_⟩, rfl, rfl⟩
  · exact decode_core_encrypt hr hs ((ctrl_mask p.ctrl).symm.trans hc)
  · exact decode_core_decrypt hr hs ((ctrl_mask p.ctrl).symm.trans hc)
  · exact (ctrl_of_decode_core_ok hi).elim hEnc hDec

/-- Settles O3: all four `MODE` modules decode by the same `decodeMode`. -/
theorem modeInputSelectsDirection : Obligations.ModeInputSelectsDirection := by
  intro inv x sIn
  refine ⟨bit_cases inv, ?_, ?_, ?_, ?_⟩ <;> simp only [decode, decodeMode_eq]

end Sys2Proof

namespace Sys2Proof.Machine

/-! ## What an operation of a single module does -/

theorem exec_gmult (a b : Byte) (s : State) : exec (.gmult a b) s = .next (driveGfm a b s) := rfl

theorem exec_sbox (x : Byte) (s : State) : exec (.sbox x) s = .next (driveSbox 0 x s) := rfl

theorem exec_invSbox (x : Byte) (s : State) : exec (.invSbox x) s = .next (driveSbox 1 x s) := rfl

theorem exec_expandKey (key : Block) (s : State) : exec (.expandKey key) s = .next (driveKeySchedule key s) := rfl

theorem aesSbox_zero (x : Byte) : aesSbox 0 x = tableEntry SBOX x := rfl

theorem aesSbox_one (x : Byte) : aesSbox 1 x = tableEntry INVSBOX x := rfl

/-- Settles O5: GMULT drives the inputs of `galois_field_mult`. -/
theorem gmultDrivesItsProduct : Obligations.GmultDrivesItsProduct := by
  intro a b s
  rw [exec_gmult, driveGfm]

/-- Settles O8: SBOX and INVSBOX drive `aes_sbox` with the two levels of its mode input. -/
theorem sboxDrivesItsTableEntry : Obligations.SboxDrivesItsTableEntry := by
  intro x s
  constructor
  · rw [exec_sbox, driveSbox, aesSbox_zero]
  · rw [exec_invSbox, driveSbox, aesSbox_one]

/-- Settles O12: EXPANDKEY drives `aes_key_schedule`, and `rk_flat` holds each round key at its place. -/
theorem expandKeyDrivesTheRoundKeys : Obligations.ExpandKeyDrivesTheRoundKeys := by
  intro key s
  have hslices : ∀ r : Fin 11,
      roundKeyOfFlat (driveKeySchedule key s).wires.keySchedule.rkFlat r = (expandKey key)[r] := by simp
  exact ⟨driveKeySchedule key s, exec_expandKey key s, rfl, hslices, rfl⟩

/-! ## Which inputs an edge looks at -/

/-- A driven edge of `aes_core`, in the order in which R83 looks at its inputs. -/
theorem step_drive_core (s : State) (p : CorePins) :
    step (s.drive (.core p)) =
      if p.rst = true then resetEdge s
      else clockEdge
        (if p.start = true then CoreRegs.present p.op p.dataLen p.keyLen p.blockIn p.keyIn else fun c => c) s :=
  step_of_core rfl

/-- The data inputs count only for a command whose two lengths are legal (R175). -/
theorem CoreRegs.present_congr {op : BitVec 1} {dataLen keyLen : BitVec 5} {block key block' key' : Block}
    (h : dataLen ≠ 16 ∨ keyLen ≠ 16 ∨ (block = block' ∧ key = key')) :
    CoreRegs.present op dataLen keyLen block key = CoreRegs.present op dataLen keyLen block' key' := by
  by_cases hl : dataLen = 16 ∧ keyLen = 16
  · obtain ⟨rfl, rfl⟩ : block = block' ∧ key = key' :=
      (h.resolve_left (not_not_intro hl.1)).resolve_left (not_not_intro hl.2)
    rfl
  · funext c
    rw [present_illegal hl, present_illegal hl]

/-- Settles O39, by the four situations of R83: reset, `RUN`, `IDLE` without a command, a presented command. -/
theorem inputsCountOnlyWhenSampled : Obligations.InputsCountOnlyWhenSampled := by
  intro s p q hrst h
  rw [step_drive_core, step_drive_core, hrst]
  rcases h with hreset | hrun | ⟨hstart, hquiet | ⟨hop, hdata, hkey, hblocks⟩⟩
  · rw [if_pos (hrst ▸ hreset), if_pos (hrst ▸ hreset)]
  · rw [clockEdge_run hrun, clockEdge_run hrun]
  · simp [← hstart, hquiet]
  · rw [← hstart, ← hop, ← hdata, ← hkey, CoreRegs.present_congr hblocks]

end Sys2Proof.Machine
end

section
/-! The two helpers of `aes_key_schedule` on the bytes of a word and on its bits. -/

namespace Sys2Proof.Machine

/-! ## RotWord and SubWord -/

/-- `wordByte_wordOf` for four separate bytes. -/
theorem wordByte_wordOf_vec (b0 b1 b2 b3 : Byte) (j : Fin 4) :
    wordByte (wordOf b0 b1 b2 b3) j = ![b0, b1, b2, b3] j :=
  wordByte_wordOf ![b0, b1, b2, b3] j

theorem rotWord_wordOf (b0 b1 b2 b3 : Byte) : rotWord (wordOf b0 b1 b2 b3) = wordOf b1 b2 b3 b0 := by
  simp only [rotWord, wordByte_wordOf_vec]
  rfl

theorem subWord_wordOf (b0 b1 b2 b3 : Byte) :
    subWord (wordOf b0 b1 b2 b3) = wordOf (sbox b0) (sbox b1) (sbox b2) (sbox b3) := by
  simp only [subWord, wordByte_wordOf_vec]
  rfl

/-- The three low bytes of a word, concatenated, are its bits 23:0. -/
theorem wordByte_append_low (t : Word) :
    wordByte t 1 ++ wordByte t 2 ++ wordByte t 3 = t.extractLsb' 0 24 := by
  have h12 : wordByte t 1 ++ wordByte t 2 = t.extractLsb' 8 16 :=
    BitVec.extractLsb'_append_extractLsb'_eq_extractLsb' rfl
  rw [h12]
  exact BitVec.extractLsb'_append_extractLsb'_eq_extractLsb' rfl

/-- RotWord on the bits of a word: the top byte moves behind the other three. -/
theorem rotWord_eq_append (t : Word) : rotWord t = t.extractLsb' 0 24 ++ t.extractLsb' 24 8 := by
  rw [rotWord, wordOf, wordByte_append_low]
  rfl

/-- Settles O14: the two helpers by the bytes of a word; the examples are two literal words taken byte by byte. -/
theorem rotWordAndSubWordBytes : Obligations.RotWordAndSubWordBytes := by
  refine ⟨fun b0 b1 b2 b3 => ⟨rotWord_wordOf b0 b1 b2 b3, subWord_wordOf b0 b1 b2 b3⟩, rotWord_eq_append, ?_, ?_⟩
  · exact rotWord_wordOf 0x09 0xcf 0x4f 0x3c
  · exact subWord_wordOf 0xcf 0x4f 0x3c 0x09

end Sys2Proof.Machine
end

section
/-! The byte substitution of `subbytes_stage`: what one byte of its output is, its value on a block given by its
bytes, and that no byte, and so no state, is its own SBOX entry. -/

namespace Sys2Proof.Machine

/-! ## Bytes of the substituted state -/

theorem exec_subBytes (sIn : Block) (s : State) : exec (.subBytes sIn) s = .next (driveSubBytes 0 sIn s) := rfl

theorem exec_invSubBytes (sIn : Block) (s : State) : exec (.invSubBytes sIn) s = .next (driveSubBytes 1 sIn s) := rfl

@[simp] theorem byteOf_subBytes (sIn : Block) (i : Fin 16) : byteOf (subBytes sIn) i = sbox (byteOf sIn i) :=
  byteOf_blockOfBytes _ i

@[simp] theorem byteOf_invSubBytes (sIn : Block) (i : Fin 16) :
    byteOf (invSubBytes sIn) i = invSbox (byteOf sIn i) :=
  byteOf_blockOfBytes _ i

theorem subBytes_blockOfBytes (f : Fin 16 → Byte) :
    subBytes (blockOfBytes f) = blockOfBytes fun i => sbox (f i) :=
  block_ext fun i => by simp only [byteOf_subBytes, byteOf_blockOfBytes]

theorem invSubBytes_blockOfBytes (f : Fin 16 → Byte) :
    invSubBytes (blockOfBytes f) = blockOfBytes fun i => invSbox (f i) :=
  block_ext fun i => by simp only [byteOf_invSubBytes, byteOf_blockOfBytes]

/-! ## Fixed points -/

/-- No entry of the forward table is its own index. -/
theorem sbox_ne_self : ∀ x : Byte, sbox x ≠ x := by decide

theorem subBytes_ne_self (sIn : Block) : subBytes sIn ≠ sIn := by
  intro h
  have hbyte : sbox (byteOf sIn 0) = byteOf sIn 0 := by rw [← byteOf_subBytes, h]
  exact sbox_ne_self _ hbyte

/-- Settles O17: SUBBYTES drives `subbytes_stage` with mode level 0; the two values are taken byte by byte. -/
theorem subBytesSubstitutesEachByte : Obligations.SubBytesSubstitutesEachByte := by
  refine ⟨fun sIn s => ?_, ?_, ?_⟩
  · have hbytes : ∀ i, byteOf (subBytesStage 0 sIn) i = tableEntry SBOX (byteOf sIn i) := byteOf_subBytes sIn
    exact ⟨driveSubBytes 0 sIn s, exec_subBytes sIn s, hbytes, rfl, rfl, subBytes_ne_self sIn, rfl⟩
  · exact subBytes_blockOfBytes fun _ => 0x00
  · exact subBytes_blockOfBytes
      ![0x19, 0x3d, 0xe3, 0xbe, 0xa0, 0xf4, 0xe2, 0x2b, 0x9a, 0xc6, 0x8d, 0x2a, 0xe9, 0xf8, 0x48, 0x08]

/-- Settles O18: INVSUBBYTES drives `subbytes_stage` with mode level 1; the three values are taken byte by byte. -/
theorem invSubBytesSubstitutesEachByte : Obligations.InvSubBytesSubstitutesEachByte := by
  refine ⟨fun sIn s => ?_, ?_, ?_, ?_⟩
  · have hbytes : ∀ i, byteOf (subBytesStage 1 sIn) i = tableEntry INVSBOX (byteOf sIn i) := byteOf_invSubBytes sIn
    exact ⟨driveSubBytes 1 sIn s, exec_invSubBytes sIn s, hbytes, rfl, rfl, rfl⟩
  · exact invSubBytes_blockOfBytes fun _ => 0x00
  · exact invSubBytes_blockOfBytes fun _ => 0x63
  · exact invSubBytes_blockOfBytes
      ![0xd4, 0x27, 0x11, 0xae, 0xe0, 0xbf, 0x98, 0xf1, 0xb8, 0xb4, 0x5d, 0xe5, 0x1e, 0x41, 0x52, 0x30]

end Sys2Proof.Machine
end

section
/-! The matrix product of `mixcolumns_stage`: GMULT is additive in its first factor, each column of the output is
the product of the matrix with that column of the input, and INVMIX, whose rows each sum to 1, keeps a column of
four equal bytes. -/

namespace Sys2Proof.Machine

/-! ## GMULT in its first factor -/

/-- A constant added on two conditions is added to the sum on exactly one of them, for it cancels itself. -/
theorem ite_xor_const (p q : Bool) (x y k : Byte) :
    (if (p ^^ q) = true then x ^^^ y ^^^ k else x ^^^ y) =
      (if p = true then x ^^^ k else x) ^^^ (if q = true then y ^^^ k else y) := by
  cases p <;> cases q
  case false.false => rfl
  case false.true => exact BitVec.xor_assoc x y k
  case true.false =>
    change x ^^^ y ^^^ k = x ^^^ k ^^^ y
    ac_rfl
  case true.true =>
    calc x ^^^ y = x ^^^ y ^^^ (k ^^^ k) := by rw [BitVec.xor_self, BitVec.xor_zero]
      _ = x ^^^ k ^^^ (y ^^^ k) := by ac_rfl

/-- Shift and reduction are linear over GF(2) (R110). -/
theorem shiftReduce_xor (a a' : Byte) : shiftReduce (a ^^^ a') = shiftReduce a ^^^ shiftReduce a' := by
  simp only [shiftReduce, BitVec.truncate_eq_setWidth, BitVec.setWidth_xor, BitVec.shiftLeft_xor_distrib,
    BitVec.getLsbD_xor, BitVec.extractLsb'_xor]
  exact ite_xor_const ..

/-- The loop of R110 is additive in the accumulator and the first factor together. -/
theorem gmultLoop_xor (n : Nat) (acc acc' a a' b : Byte) :
    gmultLoop n (acc ^^^ acc') (a ^^^ a') b = gmultLoop n acc a b ^^^ gmultLoop n acc' a' b := by
  induction n generalizing acc acc' a a' b with
  | zero => rfl
  | succ n ih =>
    have hacc : (if b.getLsbD 0 then acc ^^^ acc' ^^^ (a ^^^ a') else acc ^^^ acc') =
        (if b.getLsbD 0 then acc ^^^ a else acc) ^^^ (if b.getLsbD 0 then acc' ^^^ a' else acc') := by
      split
      · ac_rfl
      · rfl
    simp only [gmultLoop, hacc, shiftReduce_xor, ih]

theorem gmult_xor_left (a a' b : Byte) : gmult (a ^^^ a') b = gmult a b ^^^ gmult a' b :=
  gmultLoop_xor 8 0 0 a a' b

theorem gmult_one_left : ∀ b : Byte, gmult 1 b = b := by decide

/-- Four multiples of one byte by coefficients whose sum is 1. -/
theorem gmult_sum_eq_self {w x y z : Byte} (h : w ^^^ x ^^^ y ^^^ z = 1) (b : Byte) :
    gmult w b ^^^ gmult x b ^^^ gmult y b ^^^ gmult z b = b := by
  rw [← gmult_xor_left, ← gmult_xor_left, ← gmult_xor_left, h, gmult_one_left]

/-! ## Columns of the mixed state -/

/-- Two blocks with the same columns are the same block. -/
theorem block_ext_columns {A B : Block} (h : ∀ c, columnOf A c = columnOf B c) : A = B :=
  block_ext_cells fun r c => by rw [← columnOf_getElem, ← columnOf_getElem, h]

theorem columnOf_mixWith (A : Matrix) (sIn : Block) (c : Fin 4) :
    columnOf (mixWith A sIn) c = xorDot A (columnOf sIn c) := by
  rw [mixWith, columnOf_blockOfCells]
  rfl

theorem columnOf_invMixColumns (sIn : Block) (c : Fin 4) :
    columnOf (invMixColumns sIn) c = xorDot INVMIX (columnOf sIn c) :=
  columnOf_mixWith INVMIX sIn c

/-- The product with INVMIX, written out (R153). -/
theorem xorDot_INVMIX (b0 b1 b2 b3 : Byte) :
    xorDot INVMIX #v[b0, b1, b2, b3] =
      #v[gmult 0x0e b0 ^^^ gmult 0x0b b1 ^^^ gmult 0x0d b2 ^^^ gmult 0x09 b3,
         gmult 0x09 b0 ^^^ gmult 0x0e b1 ^^^ gmult 0x0b b2 ^^^ gmult 0x0d b3,
         gmult 0x0d b0 ^^^ gmult 0x09 b1 ^^^ gmult 0x0e b2 ^^^ gmult 0x0b b3,
         gmult 0x0b b0 ^^^ gmult 0x0d b1 ^^^ gmult 0x09 b2 ^^^ gmult 0x0e b3] := rfl

/-- The coefficients of each row of INVMIX sum to 1, so a column of equal bytes is its own product. -/
theorem xorDot_INVMIX_equal_bytes (b : Byte) : xorDot INVMIX #v[b, b, b, b] = #v[b, b, b, b] := by
  rw [xorDot_INVMIX, gmult_sum_eq_self (by decide), gmult_sum_eq_self (by decide), gmult_sum_eq_self (by decide),
    gmult_sum_eq_self (by decide)]

theorem invMixColumns_zero : invMixColumns 0 = 0 :=
  block_ext_columns fun c => by
    have hzero : columnOf 0 c = #v[0, 0, 0, 0] := by fin_cases c <;> rfl
    rw [columnOf_invMixColumns, hzero, xorDot_INVMIX_equal_bytes]

theorem exec_invMixColumns (sIn : Block) (s : State) :
    exec (.invMixColumns sIn) s = .next (driveMixColumns 1 sIn s) := rfl

/-- Settles O22: INVMIXCOLUMNS drives `mixcolumns_stage` with mode level 1; a column of equal bytes stays by
the row sums of INVMIX, and the two literal blocks are taken column by column. -/
theorem invMixColumnsMultipliesEachColumn : Obligations.InvMixColumnsMultipliesEachColumn := by
  refine ⟨fun sIn s => ?_, invMixColumns_zero, ?_, ?_⟩
  · refine ⟨driveMixColumns 1 sIn s, exec_invMixColumns sIn s, fun c => ?_, rfl, rfl, rfl⟩
    have hproduct : columnOf (mixColumnsStage 1 sIn) c =
        xorDot INVMIX #v[cellOf sIn 0 c, cellOf sIn 1 c, cellOf sIn 2 c, cellOf sIn 3 c] :=
      columnOf_invMixColumns sIn c
    refine ⟨hproduct, hproduct.trans (xorDot_INVMIX ..), fun h01 h12 h23 => hproduct.trans ?_⟩
    rw [← h23, ← h12, ← h01, xorDot_INVMIX_equal_bytes]
  · refine block_ext_columns fun c => ?_
    rw [columnOf_invMixColumns]
    fin_cases c <;> decide
  · rw [columnOf_invMixColumns]
    decide

end Sys2Proof.Machine
end

section
/-! The key addition of `addroundkey_stage`: ADDROUNDKEY drives the stage with both operands, and each byte and
cell of its output is the XOR of theirs. -/

namespace Sys2Proof.Machine

theorem exec_addRoundKey (sIn rk : Block) (s : State) :
    exec (.addRoundKey sIn rk) s = .next (driveAddRoundKey sIn rk s) := rfl

@[simp] theorem byteOf_addRoundKey (sIn rk : Block) (i : Fin 16) :
    byteOf (addRoundKey sIn rk) i = byteOf sIn i ^^^ byteOf rk i :=
  byteOf_xor sIn rk i

@[simp] theorem cellOf_addRoundKey (sIn rk : Block) (r c : Fin 4) :
    cellOf (addRoundKey sIn rk) r c = cellOf sIn r c ^^^ cellOf rk r c :=
  cellOf_xor sIn rk r c

@[simp] theorem addRoundKey_zero (sIn : Block) : addRoundKey sIn 0 = sIn := BitVec.xor_zero

@[simp] theorem addRoundKey_self (sIn : Block) : addRoundKey sIn sIn = 0 := BitVec.xor_self

/-- Settles O24: the output wire is `addRoundKey sIn rk`, read byte by byte and cell by cell; the two corner cases
are the zero and the self-cancellation of XOR. -/
theorem addRoundKeyXorsTheRoundKey : Obligations.AddRoundKeyXorsTheRoundKey := by
  refine ⟨fun sIn rk s => ?_, by decide⟩
  refine ⟨driveAddRoundKey sIn rk s, exec_addRoundKey sIn rk s, rfl, byteOf_addRoundKey sIn rk,
    cellOf_addRoundKey sIn rk, fun hzero => ?_, fun hself => ?_, rfl, rfl, rfl⟩
  · subst hzero
    exact addRoundKey_zero sIn
  · subst hself
    exact addRoundKey_self rk

end Sys2Proof.Machine
end

section
/-! The commands of `aes_core`: ENCRYPT, DECRYPT and the presenting pins are one command edge, which accepts or
rejects in `IDLE` and is a quiet edge in `RUN`; from these the statements about commands. -/

namespace Sys2Proof.Machine

/-! ## What a command edge does -/

theorem exec_encrypt (dataLen keyLen : BitVec 5) (block key : Block) (s : State) :
    exec (.encrypt dataLen keyLen block key) s = commandEdge 0 dataLen keyLen block key s := rfl

theorem exec_decrypt (dataLen keyLen : BitVec 5) (block key : Block) (s : State) :
    exec (.decrypt dataLen keyLen block key) s = commandEdge 1 dataLen keyLen block key s := rfl

/-- A presented command is a command edge, whether its lengths are legal or not (R167). -/
theorem step_presentPins (op : BitVec 1) (dataLen keyLen : BitVec 5) (block key : Block) (s : State) :
    step (s.drive (presentPins op dataLen keyLen block key)) = commandEdge op dataLen keyLen block key s :=
  step_drive_core s _

theorem commandEdge_legal {s : State} (hidle : s.core.fsm = .idle) (op : BitVec 1) (block key : Block) :
    commandEdge op 16 16 block key s = .next { s with core := s.core.accept op block key } := by
  rw [commandEdge, clockEdge_idle hidle, CoreRegs.present_legal rfl rfl]

theorem commandEdge_illegal {s : State} (hidle : s.core.fsm = .idle) {dataLen keyLen : BitVec 5}
    (hlen : dataLen ≠ 16 ∨ keyLen ≠ 16) (op : BitVec 1) (block key : Block) :
    commandEdge op dataLen keyLen block key s = .next { s with core := s.core.raiseInvalidLength } := by
  rw [commandEdge, clockEdge_idle hidle, CoreRegs.present_illegal (not_and_or.mpr hlen)]

/-- In `RUN` it does not matter what an edge would have done in `IDLE` (R169). -/
theorem clockEdge_run_eq_quietEdge {s : State} (hrun : s.core.fsm = .run) (atIdle : CoreRegs → CoreRegs) :
    clockEdge atIdle s = quietEdge s := by
  rw [quietEdge, clockEdge_run hrun, clockEdge_run hrun]

theorem commandEdge_run {s : State} (hrun : s.core.fsm = .run) (op : BitVec 1) (dataLen keyLen : BitVec 5)
    (block key : Block) : commandEdge op dataLen keyLen block key s = quietEdge s :=
  clockEdge_run_eq_quietEdge hrun _

/-- What a quiet edge keeps, in `RUN` through all its transitions. -/
theorem quietEdge_keeps {s t : State} (h : quietEdge s = .next t) :
    t.core.err = s.core.err ∧ t.core.opQ = s.core.opQ ∧ t.host = s.host ∧ t.wires = s.wires ∧
      (t.core.fsm = .run → t.core.rks = s.core.rks) := by
  rcases clockEdge_cases h with ⟨-, rfl⟩ | ⟨-, c, hc, rfl⟩
  · exact ⟨rfl, rfl, rfl, rfl, fun _ => rfl⟩
  · obtain ⟨herr, hop, hrunning⟩ := CoreRegs.advance_keeps hc
    exact ⟨herr, hop, rfl, rfl, fun hrun => (hrunning hrun).1⟩

/-! ## The statements -/

/-- Settles O36: both commands and their presenting pins are the command edge that accepts. -/
theorem legalCommandIsAccepted : Obligations.LegalCommandIsAccepted := by
  intro s block key hidle
  refine ⟨?_, ?_, step_presentPins 0 16 16 block key s, step_presentPins 1 16 16 block key s⟩
  · rw [exec_encrypt]
    exact commandEdge_legal hidle 0 block key
  · rw [exec_decrypt]
    exact commandEdge_legal hidle 1 block key

/-- Settles O37: the presenting pins and both commands are the command edge that rejects. -/
theorem illegalLengthRaisesInvalidLength : Obligations.IllegalLengthRaisesInvalidLength := by
  intro s dataLen keyLen op block key hidle hlen
  rw [step_presentPins, exec_encrypt, exec_decrypt]
  exact ⟨commandEdge_illegal hidle hlen op block key, commandEdge_illegal hidle hlen 0 block key,
    commandEdge_illegal hidle hlen 1 block key⟩

/-- Settles O38: an edge in `RUN` never reaches the function it would have applied in `IDLE`, and the transitions
it takes keep what `CoreRegs.advance_keeps` says. -/
theorem busyIgnoresEveryInputButReset : Obligations.BusyIgnoresEveryInputButReset := by
  intro s hrun
  refine ⟨fun p hrst => ?_, fun dataLen keyLen block key => ⟨?_, ?_⟩, fun t => quietEdge_keeps⟩
  · rw [step_drive_core, if_neg (by simp [hrst]), clockEdge_run_eq_quietEdge hrun]
  · rw [exec_encrypt, commandEdge_run hrun]
  · rw [exec_decrypt, commandEdge_run hrun]

end Sys2Proof.Machine
end

section
/-! Reset: an edge with `rst = 1` puts the registers of `aes_core` to their reset values, without looking at any
other input, and those registers show an idle core with no response. -/

namespace Sys2Proof.Machine

theorem resetEdge_eq (s : State) : resetEdge s = .next { s with core := CoreRegs.reset } := by
  rw [resetEdge, CoreRegs.doReset_eq]

/-- `rst` is looked at first (R173 line 1): in `IDLE` and in `RUN`, with a command on the ports or none. -/
theorem step_drive_core_of_rst (s : State) {p : CorePins} (hrst : p.rst = true) :
    step (s.drive (.core p)) = .next { s with core := CoreRegs.reset } := by
  rw [step_drive_core, if_pos hrst, resetEdge_eq]

theorem CoreRegs.reset_busy : CoreRegs.reset.busy = false := rfl

/-- The three bits of R30, each 0 after reset. -/
theorem CoreRegs.reset_status : CoreRegs.reset.status = 0 := by
  rw [CoreRegs.status, CoreRegs.reset_err, CoreRegs.reset_done, CoreRegs.reset_busy]
  rfl

/-- Settles O40: a driven edge with `rst = 1` is the reset edge, which writes the reset values of R231. -/
theorem resetEdgeClearsEveryRegister : Obligations.ResetEdgeClearsEveryRegister := by
  intro s p hrst
  exact ⟨step_drive_core_of_rst s hrst, CoreRegs.reset_busy, CoreRegs.reset_status⟩

end Sys2Proof.Machine
end

section
/-! The decoder and the encoder as inverses: pins that present an operation are the ones its encoder gives, and a
legal operation is read back from them. -/

namespace Sys2Proof

/-- No bit of the pins is lost: the operation they present is legal and its encoding is those pins. -/
theorem encode_of_decode_ok {p : Pins} {i : Instr} (h : decode p = .ok i) : i.wellFormed = true ∧ encode i = p := by
  cases p with
  | core p =>
    obtain ⟨rst, start, op, dataLen, keyLen, block, key⟩ := p
    obtain ⟨hrst, hstart, hdata, hkey, ⟨hop, rfl⟩ | ⟨hop, rfl⟩⟩ := decodeCore_ok h
    all_goals
      simp only at hrst hstart hdata hkey hop
      subst hrst hstart hdata hkey hop
      exact ⟨rfl, rfl⟩
  | gfm a b => cases h; exact ⟨rfl, rfl⟩
  | keySchedule key => cases h; exact ⟨rfl, rfl⟩
  | addRoundKey sIn rk => cases h; exact ⟨rfl, rfl⟩
  | sbox inv x => rcases bit_cases inv with rfl | rfl <;> cases h <;> exact ⟨rfl, rfl⟩
  | subBytes inv sIn => rcases bit_cases inv with rfl | rfl <;> cases h <;> exact ⟨rfl, rfl⟩
  | shiftRows inv sIn => rcases bit_cases inv with rfl | rfl <;> cases h <;> exact ⟨rfl, rfl⟩
  | mixColumns inv sIn => rcases bit_cases inv with rfl | rfl <;> cases h <;> exact ⟨rfl, rfl⟩

/-- A legal operation is read back; of the commands these are the ones with both declared lengths 16 (R87). -/
theorem decode_encode {i : Instr} (h : i.wellFormed = true) : decode (encode i) = .ok i := by
  cases i with
  | encrypt dataLen keyLen block key =>
    obtain ⟨rfl, rfl⟩ := Laws.TableRow.lengths_of_legal h
    exact decode_core_encrypt rfl rfl ((ctrl_eq_encrypt_iff _).mpr ⟨rfl, rfl, rfl⟩)
  | decrypt dataLen keyLen block key =>
    obtain ⟨rfl, rfl⟩ := Laws.TableRow.lengths_of_legal h
    exact decode_core_decrypt rfl rfl ((ctrl_eq_decrypt_iff _).mpr ⟨rfl, rfl, rfl⟩)
  | _ => rfl

/-- Settles O1: legality follows from being read back by the second part, which holds of all pins. -/
theorem decodeAndEncodeAgree : Obligations.DecodeAndEncodeAgree :=
  ⟨fun _ => ⟨decode_encode, fun h => (encode_of_decode_ok h).1⟩, fun _ _ => encode_of_decode_ok⟩

/-- Settles O4: the two control words of R87 are read as their commands, a word with another length field as none,
and the mode levels 0 and 1 as the two directions. -/
theorem writtenWordsDecode : Obligations.WrittenWordsDecode := by
  refine ⟨?_, ?_, ?_, rfl, rfl⟩
  · decide
  · decide
  · decide

end Sys2Proof
end

section
/-! The registers of `aes_core` over one step, said once with the event that changes them; then the invariants of
R34, kept by every event and so met in every reachable state. -/

namespace Sys2Proof.Machine

/-! ## Which event makes which registers -/

/-- What one step from `s` can make of the registers of `aes_core`, by the event on the pins (R173). -/
inductive CoreEvent (s : State) : CoreRegs → Prop where
  | reset {p : CorePins} (hpins : (fetch s).1 = .core p) (hrst : p.rst = true) : CoreEvent s CoreRegs.reset
  | quiet {p : CorePins} (hpins : (fetch s).1 = .core p) (hidle : s.core.fsm = .idle) (hrst : p.rst = false)
      (hstart : p.start = false) : CoreEvent s s.core
  | accept {p : CorePins} (hpins : (fetch s).1 = .core p) (hidle : s.core.fsm = .idle) (hrst : p.rst = false)
      (hstart : p.start = true) (hdata : p.dataLen = 16) (hkey : p.keyLen = 16) :
      CoreEvent s (s.core.accept p.op p.blockIn p.keyIn)
  | reject {p : CorePins} (hpins : (fetch s).1 = .core p) (hidle : s.core.fsm = .idle) (hrst : p.rst = false)
      (hstart : p.start = true) (hlen : ¬ (p.dataLen = 16 ∧ p.keyLen = 16)) : CoreEvent s s.core.raiseInvalidLength
  | run {p : CorePins} {c : CoreRegs} (hpins : (fetch s).1 = .core p) (hrun : s.core.fsm = .run) (hrst : p.rst = false)
      (hadvance : s.core.advance (nextPace s.pace).1 = .ok c) : CoreEvent s c
  | module (hpins : ∀ p, (fetch s).1 ≠ .core p) : CoreEvent s s.core

/-- Every step is one of these events for the registers, and leaves of the host's list what the fetch leaves. -/
theorem coreEvent_of_step {s t : State} (h : step s = .next t) :
    CoreEvent s t.core ∧ t.host = (fetch s).2.host := by
  by_cases hmodule : ∀ p, (fetch s).1 ≠ .core p
  · obtain ⟨u, hu, hcore, hhost, -⟩ := step_of_module hmodule
    obtain rfl : u = t := by simpa [hu] using h
    exact ⟨hcore ▸ .module hmodule, hhost⟩
  obtain ⟨p, hpins⟩ := not_forall_not.mp hmodule
  rw [step_of_core hpins] at h
  cases hrst : p.rst with
  | true =>
    rw [if_pos hrst, resetEdge_eq] at h
    obtain rfl := Host.Outcome.next.inj h
    exact ⟨.reset hpins hrst, rfl⟩
  | false =>
    rw [if_neg (by simp [hrst])] at h
    rcases clockEdge_cases h with ⟨hidle, rfl⟩ | ⟨hrun, c, hadvance, rfl⟩
    · refine ⟨?_, rfl⟩
      cases hstart : p.start with
      | false => exact .quiet hpins hidle hrst hstart
      | true =>
        by_cases hlen : p.dataLen = 16 ∧ p.keyLen = 16
        · simpa [CoreRegs.present_legal hlen.1 hlen.2] using
            CoreEvent.accept hpins hidle hrst hstart hlen.1 hlen.2
        · simpa [CoreRegs.present_illegal hlen] using CoreEvent.reject hpins hidle hrst hstart hlen
    · exact ⟨.run hpins hrun hrst hadvance, rfl⟩

/-! ## Each event keeps the invariants of R34 -/

/-- R34 (1) to (5). -/
def CoreRegs.MeetsR34 (c : CoreRegs) : Prop := c.WellFormed ∧ c.TracksItsCommand

/-- Items 1 to 4 for registers in `IDLE`. -/
theorem CoreRegs.wellFormed_of_idle {c : CoreRegs} (hidle : c.fsm = .idle) (hclear : c.IdleIsClear)
    (hresult : c.NoResultWithoutDone) (hexclude : ¬ (c.done = true ∧ c.err = true)) : c.WellFormed :=
  ⟨hclear, fun hrun => by simp [hidle] at hrun, hresult, hexclude, fun _ => hidle⟩

/-- Items 1 to 4 for registers in `RUN`. -/
theorem CoreRegs.wellFormed_of_run {c : CoreRegs} (hrun : c.fsm = .run) (hdone : c.done = false)
    (herr : c.err = false) (hblock : c.blockOut = 0) (hseq : c.seq.toNat ≤ 40) : c.WellFormed :=
  ⟨fun hidle => by simp [hrun] at hidle, fun _ => ⟨hdone, herr, hblock, hseq⟩, fun _ => hblock,
    by simp [hdone], by simp [hdone, herr]⟩

/-- Item 5 asks nothing of a core in `IDLE`. -/
theorem CoreRegs.tracksItsCommand_of_idle {c : CoreRegs} (hidle : c.fsm = .idle) : c.TracksItsCommand :=
  fun hrun => by simp [hidle] at hrun

theorem CoreRegs.reset_meetsR34 : CoreRegs.reset.MeetsR34 :=
  ⟨wellFormed_of_idle rfl (fun _ => ⟨rfl, rfl, by simp⟩) (fun _ => rfl) (by simp), tracksItsCommand_of_idle rfl⟩

/-- An accepted command holds its own schedule and, before the first micro-operation, its own block. -/
theorem CoreRegs.accept_runs (c : CoreRegs) (op : BitVec 1) (block key : Block) :
    (c.accept op block key).Runs block key :=
  ⟨rfl, rfl⟩

theorem CoreRegs.accept_meetsR34 (c : CoreRegs) (op : BitVec 1) (block key : Block) :
    (c.accept op block key).MeetsR34 :=
  ⟨wellFormed_of_run rfl rfl rfl rfl (by simp), fun _ => ⟨block, key, c.accept_runs op block key⟩⟩

/-- A rejection leaves the working registers clear, as they were (R203). -/
theorem CoreRegs.raiseInvalidLength_meetsR34 {c : CoreRegs} (hidle : c.fsm = .idle) (hclear : c.IdleIsClear) :
    c.raiseInvalidLength.MeetsR34 :=
  ⟨wellFormed_of_idle hidle hclear (fun _ => rfl) (by simp), tracksItsCommand_of_idle hidle⟩

/-- One micro-operation more, of the same block under the same key (R176). -/
theorem CoreRegs.seqStep_runs {c : CoreRegs} (hseq : c.seq.toNat < 40) {block key : Block} (h : c.Runs block key) :
    (c.seqStep hseq).Runs block key := by
  obtain ⟨hrks, hstate⟩ := h
  refine ⟨hrks, ?_⟩
  rw [seqStep_seq_toNat, seqStep_opQ, stateAfter_succ hseq, seqStep_state, ← hstate, hrks]

theorem CoreRegs.seqStep_meetsR34 {c : CoreRegs} (hseq : c.seq.toNat < 40) (hrun : c.fsm = .run) (h : c.MeetsR34) :
    (c.seqStep hseq).MeetsR34 := by
  obtain ⟨⟨-, hresponse, -, -⟩, htracks⟩ := h
  obtain ⟨hdone, herr, hblock, -⟩ := hresponse hrun
  refine ⟨wellFormed_of_run hrun hdone herr hblock ?_, fun _ => ?_⟩
  · rw [seqStep_seq_toNat]
    exact hseq
  · obtain ⟨block, key, hruns⟩ := htracks hrun
    exact ⟨block, key, seqStep_runs hseq hruns⟩

/-- The finish clears the working registers and sets `done` beside an `err` that was 0 (R177). -/
theorem CoreRegs.finish_meetsR34 {c : CoreRegs} (hrun : c.fsm = .run) (h : c.MeetsR34) : c.finish.MeetsR34 := by
  obtain ⟨⟨-, hresponse, -, -⟩, -⟩ := h
  obtain ⟨-, herr, -, -⟩ := hresponse hrun
  exact ⟨wellFormed_of_idle rfl (fun _ => ⟨rfl, rfl, by simp⟩) (by simp) (by simp [herr]), tracksItsCommand_of_idle rfl⟩

/-- Every number of transitions keeps them. -/
theorem CoreRegs.advance_meetsR34 {n : Nat} {c d : CoreRegs} (h : c.advance n = .ok d) (hc : c.MeetsR34) :
    d.MeetsR34 :=
  advance_induct (P := MeetsR34) (fun _ hseq hrun => seqStep_meetsR34 hseq hrun)
    (fun _ hrun _ => finish_meetsR34 hrun) h hc

/-- A running core keeps the block and the key of its command. -/
theorem CoreRegs.advance_runs {n : Nat} {c d : CoreRegs} {block key : Block} (h : c.advance n = .ok d)
    (hc : c.Runs block key) : d.fsm = .run → d.Runs block key :=
  advance_induct (P := fun e => e.fsm = .run → e.Runs block key)
    (fun _ hseq hrun he _ => seqStep_runs hseq (he hrun)) (fun _ _ _ _ hrun => by simp at hrun) h (fun _ => hc)

theorem CoreEvent.meetsR34 {s : State} {c : CoreRegs} (h : CoreEvent s c) (hs : s.core.MeetsR34) : c.MeetsR34 := by
  cases h with
  | reset => exact CoreRegs.reset_meetsR34
  | quiet => exact hs
  | accept => exact CoreRegs.accept_meetsR34 ..
  | reject _ hidle =>
    obtain ⟨⟨hclear, -⟩, -⟩ := hs
    exact CoreRegs.raiseInvalidLength_meetsR34 hidle hclear
  | run _ _ _ hadvance => exact CoreRegs.advance_meetsR34 hadvance hs
  | module => exact hs

/-- Of the events that leave a core in `RUN`, each keeps the block and the key of its command. -/
theorem CoreEvent.runs {s : State} {c : CoreRegs} (h : CoreEvent s c) (hrun : s.core.fsm = .run) {block key : Block}
    (hs : s.core.Runs block key) (hc : c.fsm = .run) : c.Runs block key := by
  cases h with
  | reset => simp at hc
  | quiet | module => exact hs
  | accept _ hidle | reject _ hidle => simp [hidle] at hrun
  | run _ _ _ hadvance => exact CoreRegs.advance_runs hadvance hs hc

theorem step_meetsR34 {s t : State} (hs : s.core.MeetsR34) (h : step s = .next t) : t.core.MeetsR34 :=
  (coreEvent_of_step h).1.meetsR34 hs

/-- Settles O49, event by event. -/
theorem stepKeepsTheInvariants : Obligations.StepKeepsTheInvariants :=
  fun _ _ => step_meetsR34

/-! ## Every reachable state -/

/-- What every step keeps, a run keeps. -/
theorem runSteps_induct {P : State → Prop} (hstep : ∀ s t, P s → step s = .next t → P t) {n : Nat} {s t : State}
    (h : runSteps n s = .next t) (hs : P s) : P t := by
  induction n generalizing s with
  | zero =>
    obtain rfl : s = t := by simpa [runSteps] using h
    exact hs
  | succ n ih =>
    cases hu : step s with
    | next u => exact ih (by simpa [runSteps, hu] using h) (hstep s u hs hu)
    | fault r => simp [runSteps, hu] at h
    | refused r => simp [runSteps, hu] at h

theorem Reachable.meetsR34 {s : State} (h : Reachable s) : s.core.MeetsR34 := by
  obtain ⟨host, pace, n, hrun⟩ := h
  exact runSteps_induct (P := fun s => s.core.MeetsR34) (fun _ _ => step_meetsR34) hrun CoreRegs.reset_meetsR34

/-- An accepted command's edge puts the core in `RUN` with its block and key (R174). -/
theorem commandEdge_legal_runs {s a : State} (hidle : s.core.fsm = .idle) {op : BitVec 1} {block key : Block}
    (h : commandEdge op 16 16 block key s = .next a) : a.core.fsm = .run ∧ a.core.Runs block key := by
  rw [commandEdge_legal hidle] at h
  obtain rfl := Host.Outcome.next.inj h
  exact ⟨rfl, CoreRegs.accept_runs ..⟩

/-- Settles O48: the invariants by induction over the run, the block and key by the acceptance and by the events
that leave a core running. -/
theorem reachableStatesMeetTheInvariants : Obligations.ReachableStatesMeetTheInvariants := by
  refine ⟨fun _ => Reachable.meetsR34, fun s a block key hidle h => ?_, fun s t block key hrun hs h => ?_⟩
  · rw [exec_encrypt, exec_decrypt] at h
    exact h.elim (commandEdge_legal_runs hidle) (commandEdge_legal_runs hidle)
  · exact (coreEvent_of_step h).1.runs hrun hs

end Sys2Proof.Machine
end

section
/-! GMULT as the product in GF(2)[x] modulo x^8+x^4+x^3+x+1, the field laws that follow, and the S-box tables
over that field. -/

namespace Sys2Proof.Machine

open Polynomial

/-! ## Bytes as polynomials over GF(2) -/

/-- A byte as a polynomial over GF(2), bit `i` the coefficient of `x^i`. -/
noncomputable def bytePoly (c : Byte) : (ZMod 2)[X] := ∑ i ∈ Finset.range 8, if c.getLsbD i then X ^ i else 0

/-- The reducing polynomial of R110. -/
noncomputable def fieldPoly : (ZMod 2)[X] := X ^ 8 + X ^ 4 + X ^ 3 + X + 1

theorem fieldPoly_degree : fieldPoly.degree = 8 := by
  unfold fieldPoly
  compute_degree!

theorem fieldPoly_monic : fieldPoly.Monic := by
  unfold fieldPoly
  monicity!

theorem bytePoly_coeff (c : Byte) (n : Nat) : (bytePoly c).coeff n = if c.getLsbD n then 1 else 0 := by
  simp only [bytePoly, finsetSum_coeff, apply_ite (coeff · n), coeff_X_pow, coeff_zero]
  by_cases hn : n < 8
  · rw [Finset.sum_eq_single_of_mem n (Finset.mem_range.mpr hn)]
    · simp
    · intro i _ hi
      simp [hi.symm]
  · rw [BitVec.getLsbD_of_ge c n (by omega)]
    refine Finset.sum_eq_zero fun i hi => ?_
    have : n ≠ i := by
      have := Finset.mem_range.mp hi
      omega
    simp [this]

theorem bytePoly_degree_lt (c : Byte) : (bytePoly c).degree < fieldPoly.degree := by
  rw [fieldPoly_degree]
  refine (degree_lt_iff_coeff_zero _ 8).mpr fun n hn => ?_
  rw [bytePoly_coeff, BitVec.getLsbD_of_ge c n hn]
  rfl

theorem bytePoly_injective : Function.Injective bytePoly := by
  intro a b h
  refine BitVec.eq_of_getLsbD_eq fun n _ => ?_
  have hcoeff : (bytePoly a).coeff n = (bytePoly b).coeff n := by rw [h]
  rw [bytePoly_coeff, bytePoly_coeff] at hcoeff
  cases ha : a.getLsbD n <;> cases hb : b.getLsbD n <;> simp [ha, hb] at hcoeff ⊢

/-- XOR is addition: `1 + 1 = 0`. -/
theorem bytePoly_xor (a b : Byte) : bytePoly (a ^^^ b) = bytePoly a + bytePoly b := by
  ext n
  rw [coeff_add, bytePoly_coeff, bytePoly_coeff, bytePoly_coeff, BitVec.getLsbD_xor]
  cases a.getLsbD n <;> cases b.getLsbD n <;> simp [CharTwo.add_self_eq_zero]

@[simp] theorem bytePoly_zero : bytePoly 0 = 0 := by
  ext n
  simp [bytePoly_coeff]

/-- The polynomial from the lowest bit up, as the loop of R110 reads its second factor. -/
theorem bytePoly_shiftRight (b : Byte) :
    bytePoly b = (if b.getLsbD 0 then 1 else 0 : (ZMod 2)[X]) + X * bytePoly (b >>> 1) := by
  ext n
  rw [coeff_add, bytePoly_coeff, apply_ite (coeff · n), coeff_one, coeff_zero]
  cases n with
  | zero => simp
  | succ n => simp [coeff_X_mul, bytePoly_coeff, Nat.add_comm 1 n]

/-- A left shift by one is a multiplication by `x`; the bit that falls out was the coefficient of `x^7`. -/
theorem bytePoly_shiftLeft (a : Byte) :
    bytePoly (a <<< 1) = X * bytePoly a + if a.getLsbD 7 then X ^ 8 else 0 := by
  ext n
  rw [coeff_add, bytePoly_coeff, apply_ite (coeff · n), coeff_X_pow, coeff_zero, BitVec.getLsbD_shiftLeft]
  cases n with
  | zero => simp
  | succ n =>
    rw [coeff_X_mul, bytePoly_coeff, Nat.add_sub_cancel]
    rcases lt_trichotomy n 7 with hn | rfl | hn
    · simp [hn.ne, Nat.add_lt_add_right hn 1]
    · cases a.getLsbD 7 <;> simp [CharTwo.add_self_eq_zero]
    · simp [hn.ne', BitVec.getLsbD_of_ge a n hn]

theorem bytePoly_0x1B : bytePoly 0x1B = X ^ 4 + X ^ 3 + X + 1 := by
  simp [bytePoly, Finset.sum_range_succ, BitVec.getLsbD, Nat.testBit]
  ring

/-- The shift of R110 on eight bits: bit 7 is the one that the ninth bit receives. -/
theorem shiftReduce_eq : ∀ a : Byte, shiftReduce a = a <<< 1 ^^^ if a.getLsbD 7 then 0x1B else 0 := by decide

/-- Shift and reduction are a multiplication by `x`, less the reducing polynomial where `x^8` appeared. -/
theorem bytePoly_shiftReduce (a : Byte) :
    bytePoly (shiftReduce a) = X * bytePoly a + if a.getLsbD 7 then fieldPoly else 0 := by
  rw [shiftReduce_eq, bytePoly_xor, bytePoly_shiftLeft, apply_ite bytePoly, bytePoly_0x1B, bytePoly_zero, fieldPoly]
  split <;> ring

/-! ## The product in the quotient ring -/

/-- The class of a byte in GF(2)[x] modulo the reducing polynomial. -/
noncomputable def byteClass (a : Byte) : AdjoinRoot fieldPoly := AdjoinRoot.mk fieldPoly (bytePoly a)

/-- A byte's polynomial is the remainder of everything in its class. -/
theorem bytePoly_eq_modByMonic {a : Byte} {p : (ZMod 2)[X]} (h : byteClass a = AdjoinRoot.mk fieldPoly p) :
    bytePoly a = p %ₘ fieldPoly :=
  calc bytePoly a = bytePoly a %ₘ fieldPoly :=
        ((modByMonic_eq_self_iff fieldPoly_monic).mpr (bytePoly_degree_lt a)).symm
    _ = p %ₘ fieldPoly := modByMonic_eq_of_dvd_sub fieldPoly_monic (AdjoinRoot.mk_eq_mk.mp h)

theorem byteClass_injective : Function.Injective byteClass := fun _ b h =>
  bytePoly_injective ((bytePoly_eq_modByMonic h).trans (bytePoly_eq_modByMonic (a := b) rfl).symm)

theorem byteClass_xor (a b : Byte) : byteClass (a ^^^ b) = byteClass a + byteClass b := by
  rw [byteClass, bytePoly_xor, map_add]
  rfl

@[simp] theorem byteClass_zero : byteClass 0 = 0 := by
  rw [byteClass, bytePoly_zero, map_zero]

theorem byteClass_shiftReduce (a : Byte) : byteClass (shiftReduce a) = AdjoinRoot.root fieldPoly * byteClass a := by
  rw [byteClass, bytePoly_shiftReduce, map_add, map_mul, AdjoinRoot.mk_X, apply_ite (AdjoinRoot.mk fieldPoly),
    AdjoinRoot.mk_self, map_zero, ite_self, add_zero]
  rfl

theorem byteClass_shiftRight (b : Byte) :
    byteClass b =
      (if b.getLsbD 0 then 1 else 0 : AdjoinRoot fieldPoly) + AdjoinRoot.root fieldPoly * byteClass (b >>> 1) := by
  rw [byteClass, bytePoly_shiftRight, map_add, map_mul, AdjoinRoot.mk_X, apply_ite (AdjoinRoot.mk fieldPoly),
    map_one, map_zero]
  rfl

/-- The loop invariant of R110: `acc + aa * bb` is the same after every iteration, until `bb` is used up. -/
theorem byteClass_gmultLoop (n : Nat) (acc aa bb : Byte) (hbb : bb >>> n = 0) :
    byteClass (gmultLoop n acc aa bb) = byteClass acc + byteClass aa * byteClass bb := by
  induction n generalizing acc aa bb with
  | zero =>
    obtain rfl : bb = 0 := by simpa using hbb
    rw [gmultLoop, byteClass_zero, mul_zero, add_zero]
  | succ n ih =>
    have hrest : bb >>> 1 >>> n = 0 := by rw [← BitVec.shiftRight_add, Nat.add_comm, hbb]
    have hacc : byteClass (if bb.getLsbD 0 then acc ^^^ aa else acc) =
        byteClass acc + byteClass aa * (if bb.getLsbD 0 then 1 else 0 : AdjoinRoot fieldPoly) := by
      split <;> simp [byteClass_xor]
    rw [gmultLoop, ih _ _ _ hrest, hacc, byteClass_shiftReduce, byteClass_shiftRight bb]
    ring

/-- GMULT is the product in the quotient ring. -/
theorem byteClass_gmult (a b : Byte) : byteClass (gmult a b) = byteClass a * byteClass b := by
  rw [gmult, byteClass_gmultLoop 8 _ _ _ (BitVec.ushiftRight_eq_zero (by decide)), byteClass_zero, zero_add]

/-- Settles O6: the class of GMULT is the product of the classes, and the remainder represents it. -/
theorem gmultIsTheFieldProduct : Obligations.GmultIsTheFieldProduct := by
  intro a b
  have hclass : byteClass (gmult a b) = AdjoinRoot.mk fieldPoly (bytePoly a * bytePoly b) := by
    rw [byteClass_gmult, map_mul]
    rfl
  exact bytePoly_eq_modByMonic hclass

/-! ## The field laws -/

theorem gmult_comm (a b : Byte) : gmult a b = gmult b a :=
  byteClass_injective (by rw [byteClass_gmult, byteClass_gmult, mul_comm])

theorem gmult_xor_right (a b c : Byte) : gmult a (b ^^^ c) = gmult a b ^^^ gmult a c := by
  rw [gmult_comm, gmult_xor_left, gmult_comm b, gmult_comm c]

theorem gmult_assoc (a b c : Byte) : gmult (gmult a b) c = gmult a (gmult b c) :=
  byteClass_injective (by simp only [byteClass_gmult, mul_assoc])

theorem gmult_zero_left (b : Byte) : gmult 0 b = 0 :=
  byteClass_injective (by rw [byteClass_gmult, byteClass_zero, zero_mul])

/-- The doubling `xt` of R111 is one shift with its reduction. -/
theorem gmult_two (b : Byte) : gmult 2 b = b <<< 1 ^^^ if b.getLsbD 7 then 0x1B else 0x00 := by
  revert b
  decide

theorem gmult_three (b : Byte) : gmult 3 b = gmult 2 b ^^^ b := by
  have hthree : (3 : Byte) = 2 ^^^ 1 := rfl
  rw [hthree, gmult_xor_left, gmult_one_left]

/-- The inverse of the affine map of R124. -/
def sboxAffineInverse (y : Byte) : Byte := y.rotateLeft 1 ^^^ y.rotateLeft 3 ^^^ y.rotateLeft 6 ^^^ 0x05

/-- The multiplicative inverse, read off the S-box by undoing its affine map; 0 for 0. -/
def gfInverse (x : Byte) : Byte := sboxAffineInverse (sbox x)

theorem gmult_gfInverse : ∀ x : Byte, x ≠ 0 → gmult x (gfInverse x) = 1 := by decide +kernel

/-- A factor other than 0 can be cancelled. -/
theorem gmult_left_cancel {a b c : Byte} (ha : a ≠ 0) (h : gmult a b = gmult a c) : b = c :=
  have hinv (d : Byte) : gmult (gfInverse a) (gmult a d) = d := by
    rw [← gmult_assoc, gmult_comm (gfInverse a), gmult_gfInverse a ha, gmult_one_left]
  calc b = gmult (gfInverse a) (gmult a b) := (hinv b).symm
    _ = c := by rw [h, hinv]

theorem gmult_eq_zero {a b : Byte} (h : gmult a b = 0) : a = 0 ∨ b = 0 := by
  refine or_iff_not_imp_left.mpr fun ha => gmult_left_cancel ha ?_
  rw [h, gmult_comm, gmult_zero_left]

/-- Settles O7: the laws of the quotient ring, and an inverse for each byte other than 0. -/
theorem gmultFieldLaws : Obligations.GmultFieldLaws :=
  ⟨gmult_comm, gmult_xor_right, gmult_assoc, fun b => ⟨gmult_one_left b, gmult_zero_left b⟩,
    fun _ _ => gmult_eq_zero, gmult_two, gmult_three⟩

/-! ## The constants over the field -/

/-- Settles O11: the list of R125, and nine products by 2. -/
theorem roundConstantsDouble : Obligations.RoundConstantsDouble := by
  refine ⟨rfl, rfl, ?_⟩
  decide

/-- Entry `(i, j)` of the product of two matrices over GF(2^8). -/
def mulEntry (A B : Matrix) (i j : Fin 4) : Byte :=
  gmult A[i][0] B[0][j] ^^^ gmult A[i][1] B[1][j] ^^^ gmult A[i][2] B[2][j] ^^^ gmult A[i][3] B[3][j]

theorem INVMIX_mul_MIX : ∀ i j : Fin 4, mulEntry INVMIX MIX i j = if i = j then 1 else 0 := by decide

theorem MIX_mul_INVMIX : ∀ i j : Fin 4, mulEntry MIX INVMIX i j = if i = j then 1 else 0 := by decide

/-- Settles O23: the rows by rotation of their indices, the product by its sixteen entries. -/
theorem mixMatricesAreCirculantInverses : Obligations.MixMatricesAreCirculantInverses := by
  refine ⟨rfl, rfl, ?_, INVMIX_mul_MIX⟩
  decide

/-! ## The S-box tables -/

theorem invSbox_sbox : ∀ x : Byte, invSbox (sbox x) = x := by decide

theorem sbox_invSbox : ∀ x : Byte, sbox (invSbox x) = x := by decide

theorem sbox_bijective : Function.Bijective sbox :=
  Function.bijective_iff_has_inverse.mpr ⟨invSbox, invSbox_sbox, sbox_invSbox⟩

theorem invSbox_bijective : Function.Bijective invSbox :=
  Function.bijective_iff_has_inverse.mpr ⟨sbox, sbox_invSbox, invSbox_sbox⟩

/-- A fixed point of the inverse table would be one of the forward table. -/
theorem invSbox_ne_self (x : Byte) : invSbox x ≠ x := fun h =>
  sbox_ne_self x (by conv_rhs => rw [← sbox_invSbox x, h])

theorem sbox_eq_zero_iff (x : Byte) : sbox x = 0 ↔ x = 0x52 :=
  have hzero : sbox 0x52 = 0 := rfl
  ⟨fun h => sbox_bijective.injective (h.trans hzero.symm), fun h => h ▸ hzero⟩

/-- Settles O9: the tables undo each other on every byte. -/
theorem sboxTablesAreInversePermutations : Obligations.SboxTablesAreInversePermutations :=
  ⟨fun x => ⟨invSbox_sbox x, sbox_invSbox x⟩, sbox_bijective, invSbox_bijective,
    fun x => ⟨sbox_ne_self x, invSbox_ne_self x, sbox_eq_zero_iff x⟩⟩

/-- The affine map of R124. -/
def sboxAffine (v : Byte) : Byte :=
  v ^^^ v.rotateLeft 1 ^^^ v.rotateLeft 2 ^^^ v.rotateLeft 3 ^^^ v.rotateLeft 4 ^^^ 0x63

theorem sboxAffine_sboxAffineInverse : ∀ y : Byte, sboxAffine (sboxAffineInverse y) = y := by decide +kernel

theorem sbox_eq_affine_gfInverse (x : Byte) : sbox x = sboxAffine (gfInverse x) :=
  (sboxAffine_sboxAffineInverse (sbox x)).symm

/-- Settles O10: the preimage of the table entry under the affine map is an inverse, and cancellation makes it the
only one. -/
theorem sboxIsTheAffineInverse : Obligations.SboxIsTheAffineInverse := by
  have hunique {x v : Byte} (hx : x ≠ 0) (hv : gmult x v = 1) : v = gfInverse x :=
    gmult_left_cancel hx (hv.trans (gmult_gfInverse x hx).symm)
  refine ⟨fun x hx => ⟨gfInverse x, gmult_gfInverse x hx, fun v => hunique hx⟩, fun x v h => ?_⟩
  rcases h with ⟨rfl, rfl⟩ | ⟨hx, hv⟩
  · exact sbox_eq_affine_gfInverse 0
  · rw [hunique hx hv]
    exact sbox_eq_affine_gfInverse x

end Sys2Proof.Machine
end

section
/-! The key schedule: a word once appended is never changed, so the words of the whole schedule meet the recurrence
of R133, and each round key has four of them as its columns. -/

namespace Sys2Proof.Machine

/-! ## Bytes of words -/

/-- Two words with the same four bytes are the same word. -/
theorem word_ext {v w : Word} (h : ∀ j, wordByte v j = wordByte w j) : v = w := by
  apply BitVec.eq_of_getLsbD_eq
  intro n hn
  have hbyte := congrArg (fun b : Byte => b.getLsbD (n % 8)) (h ⟨3 - n / 8, by omega⟩)
  have hplace : 24 - 8 * (3 - n / 8) + n % 8 = n := by omega
  simpa only [wordByte, BitVec.getLsbD_extractLsb', hplace, show n % 8 < 8 by omega, decide_true, Bool.true_and]
    using hbyte

theorem wordOf_wordByte (w : Word) : wordOf (wordByte w 0) (wordByte w 1) (wordByte w 2) (wordByte w 3) = w :=
  word_ext (wordByte_wordOf (wordByte w))

/-- Adding a byte to the first byte of a word (R133). -/
theorem xor_wordOf_first (w : Word) (b : Byte) :
    w ^^^ wordOf b 0 0 0 = wordOf (wordByte w 0 ^^^ b) (wordByte w 1) (wordByte w 2) (wordByte w 3) :=
  word_ext fun j => by
    rw [wordByte_xor, wordByte_wordOf_vec, wordByte_wordOf_vec]
    fin_cases j
    · rfl
    all_goals exact BitVec.xor_zero

/-- RotWord moves bytes and SubWord replaces them, each wherever it stands. -/
theorem rotWord_subWord (t : Word) : rotWord (subWord t) = subWord (rotWord t) := by
  rw [← wordOf_wordByte t]
  simp only [rotWord_wordOf, subWord_wordOf]

/-! ## The words of the schedule -/

theorem scheduleWords_zero_getElem (key : Block) (c : Fin 4) :
    (scheduleWords key 0 (Nat.zero_le 40))[c] = colWord key c := by
  fin_cases c <;> rfl

/-- Extending the schedule keeps the words it has. -/
theorem scheduleWords_succ_getElem (key : Block) {n i : Nat} (hn : n + 1 ≤ 40) (hi : i < n + 4) :
    (scheduleWords key (n + 1) hn)[i] = (scheduleWords key n (Nat.le_of_succ_le hn))[i] :=
  Vector.getElem_push_lt hi

theorem scheduleWords_getElem_last (key : Block) {n : Nat} (hn : n + 1 ≤ 40) :
    (scheduleWords key (n + 1) hn)[n + 4] =
      (scheduleWords key n (Nat.le_of_succ_le hn))[n] ^^^
        scheduleCore ⟨n, hn⟩ (scheduleWords key n (Nat.le_of_succ_le hn))[n + 3] :=
  Vector.getElem_push_eq

/-- The words of a schedule cut short are the words of the whole schedule. -/
theorem scheduleWords_getElem (key : Block) {n : Nat} (hn : n ≤ 40) {i : Nat} (hi : i < n + 4) :
    (scheduleWords key n hn)[i] = (keyWords key)[i] := by
  induction hn using Nat.decreasingInduction with
  | self => rfl
  | of_succ n hn ih => rw [← ih (by omega), scheduleWords_succ_getElem key hn hi]

theorem keyWords_column (key : Block) (c : Fin 4) : (keyWords key)[c] = colWord key c :=
  (scheduleWords_getElem key (Nat.zero_le 40) c.isLt).symm.trans (scheduleWords_zero_getElem key c)

/-- The recurrence of R133, through `g`. -/
theorem keyWords_recurrence (key : Block) {n : Nat} (hn : n < 40) :
    (keyWords key)[n + 4] = (keyWords key)[n] ^^^ scheduleCore ⟨n, hn⟩ (keyWords key)[n + 3] := by
  rw [← scheduleWords_getElem key hn (Nat.lt_succ_self _), scheduleWords_getElem_last, scheduleWords_getElem,
    scheduleWords_getElem]

/-- `g` written out (R133). -/
theorem scheduleCore_eq (k : Fin 40) (t : Word) :
    scheduleCore k t =
      if (k.val + 4) % 4 = 0 then
        wordOf (wordByte (subWord (rotWord t)) 0 ^^^ RCON[(k.val + 4) / 4 - 1])
          (wordByte (subWord (rotWord t)) 1) (wordByte (subWord (rotWord t)) 2) (wordByte (subWord (rotWord t)) 3)
      else t := by
  rw [scheduleCore, rconWord, xor_wordOf_first]

/-- Settles O13: the recurrence over the whole schedule, with `g` written out. -/
theorem keyScheduleWordRecurrence : Obligations.KeyScheduleWordRecurrence := by
  refine ⟨fun key i h => keyWords_column key ⟨i, h⟩, fun key i h4 h => ?_, rotWord_subWord, ?_⟩
  · obtain ⟨n, rfl⟩ := Nat.exists_eq_add_of_le' h4
    exact (keyWords_recurrence key (by omega)).trans (congrArg _ (scheduleCore_eq ⟨n, by omega⟩ _))
  · decide +kernel

/-! ## Round keys -/

/-- The columns of round key `r` are the words `4r .. 4r+3` (R134). -/
theorem colWord_expandKey (key : Block) (r : Fin 11) (c : Fin 4) :
    colWord (expandKey key)[r] c = (keyWords key)[4 * r.val + c.val] := by
  have hround : (expandKey key)[r] =
      blockOfWords (keyWords key)[4 * r.val] (keyWords key)[4 * r.val + 1] (keyWords key)[4 * r.val + 2]
        (keyWords key)[4 * r.val + 3] := Vector.getElem_ofFn ..
  rw [hround]
  exact colWord_blockOfWords (fun j => (keyWords key)[4 * r.val + j.val]) c

theorem expandKey_zero (key : Block) : (expandKey key)[0] = key :=
  block_ext_words fun c => (colWord_expandKey key 0 c).trans <| by
    simp only [Fin.coe_ofNat_eq_mod, Nat.zero_mod, mul_zero, zero_add]
    exact keyWords_column key c

/-- Word `i` of `rk_flat` is column `i mod 4` of round key `i / 4`. -/
theorem flattenRoundKeys_word (rks : RoundKeys) (i : Fin 44) :
    (flattenRoundKeys rks).extractLsb' (1376 - 32 * i.val) 32 = colWord rks[i.val / 4] ⟨i.val % 4, by omega⟩ := by
  have hround : rks[i.val / 4] = roundKeyOfFlat (flattenRoundKeys rks) ⟨i.val / 4, by omega⟩ :=
    (roundKeyOfFlat_flatten rks ⟨i.val / 4, by omega⟩).symm
  rw [hround]
  apply BitVec.eq_of_getLsbD_eq
  intro n hn
  have hin : 96 - 32 * (i.val % 4) + n < 128 := by omega
  have hplace : 1280 - 128 * (i.val / 4) + (96 - 32 * (i.val % 4) + n) = 1376 - 32 * i.val + n := by omega
  simp only [colWord, roundKeyOfFlat, BitVec.getLsbD_extractLsb', hin, hplace, decide_true, Bool.true_and]

/-- Settles O15: each part reads the round keys by their columns. -/
theorem roundKeysGroupTheWords : Obligations.RoundKeysGroupTheWords := by
  refine fun key => ⟨fun r j c => ?_, fun r => ?_, fun i => ?_, expandKey_zero key⟩
  · rw [← wordByte_colWord, colWord_expandKey]
  · exact Vector.getElem_ofFn ..
  · rw [flattenRoundKeys_word]
    refine (colWord_expandKey key ⟨i.val / 4, by omega⟩ ⟨i.val % 4, by omega⟩).trans ?_
    simp only [Nat.div_add_mod]
    rfl

end Sys2Proof.Machine
end

section
/-! The layout of a 128-bit value, and the stages of a round as functions on it: the row shifts cell by cell, the
matrix products column by column, and each stage undone by its inverse. -/

namespace Sys2Proof.Machine

/-! ## Layout -/

theorem colWord_eq_wordOf (B : Block) (c : Fin 4) :
    colWord B c = wordOf (cellOf B 0 c) (cellOf B 1 c) (cellOf B 2 c) (cellOf B 3 c) :=
  word_ext fun j => (wordByte_colWord B c j).trans (wordByte_wordOf (cellOf B · c) j).symm

theorem rowOf_getElem (B : Block) (r c : Fin 4) : (rowOf B r)[c] = cellOf B r c := by
  fin_cases c <;> rfl

/-- Settles O16: bytes and words by reading back what was put together from them. -/
theorem operandViewsAgree : Obligations.OperandViewsAgree := fun B =>
  ⟨fun _ => rfl, fun _ _ => rfl, blockOfBytes_byteOf B, block_ext_words (colWord_blockOfWords (colWord B)),
    colWord_eq_wordOf B, rowOf_getElem B⟩

/-! ## Row shifts -/

theorem exec_shiftRows (sIn : Block) (s : State) : exec (.shiftRows sIn) s = .next (driveShiftRows 0 sIn s) := rfl

theorem exec_invShiftRows (sIn : Block) (s : State) :
    exec (.invShiftRows sIn) s = .next (driveShiftRows 1 sIn s) := rfl

@[simp] theorem cellOf_shiftRows (sIn : Block) (r c : Fin 4) : cellOf (shiftRows sIn) r c = cellOf sIn r (c + r) :=
  cellOf_blockOfCells _ r c

@[simp] theorem cellOf_invShiftRows (sIn : Block) (r c : Fin 4) :
    cellOf (invShiftRows sIn) r c = cellOf sIn r (c - r) :=
  cellOf_blockOfCells _ r c

/-- A byte taken from column `c` of its own row `i mod 4`. -/
theorem cellOf_row_eq_byteOf (B : Block) (i : Fin 16) (c : Fin 4) :
    cellOf B ⟨i.val % 4, by omega⟩ c = byteOf B ⟨i.val % 4 + 4 * c.val, by omega⟩ := rfl

/-- Row `r` moves left by `r` columns, in terms of the byte numbers (R145). -/
theorem byteOf_shiftRows (sIn : Block) (i : Fin 16) :
    byteOf (shiftRows sIn) i = byteOf sIn ⟨(5 * i.val) % 16, by omega⟩ := by
  have hplace : i.val % 4 + 4 * ((i.val / 4 + i.val % 4) % 4) = 5 * i.val % 16 := by omega
  rw [byteOf_eq_cellOf, cellOf_shiftRows, cellOf_row_eq_byteOf]
  exact congrArg (byteOf sIn) (Fin.ext hplace)

/-- Row `r` moves right by `r` columns, in terms of the byte numbers (R146). -/
theorem byteOf_invShiftRows (sIn : Block) (i : Fin 16) :
    byteOf (invShiftRows sIn) i = byteOf sIn ⟨(13 * i.val) % 16, by omega⟩ := by
  have hplace : i.val % 4 + 4 * ((4 - i.val % 4 + i.val / 4) % 4) = 13 * i.val % 16 := by omega
  rw [byteOf_eq_cellOf, cellOf_invShiftRows, cellOf_row_eq_byteOf]
  exact congrArg (byteOf sIn) (Fin.ext hplace)

/-- Columns that are all equal are unmoved. -/
theorem shiftRows_eq_self {sIn : Block} (h : ∀ r c d : Fin 4, cellOf sIn r c = cellOf sIn r d) :
    shiftRows sIn = sIn :=
  block_ext_cells fun r c => (cellOf_shiftRows sIn r c).trans (h r _ _)

theorem invShiftRows_eq_self {sIn : Block} (h : ∀ r c d : Fin 4, cellOf sIn r c = cellOf sIn r d) :
    invShiftRows sIn = sIn :=
  block_ext_cells fun r c => (cellOf_invShiftRows sIn r c).trans (h r _ _)

theorem invShiftRows_shiftRows (S : Block) : invShiftRows (shiftRows S) = S :=
  block_ext_cells fun r c => by rw [cellOf_invShiftRows, cellOf_shiftRows, sub_add_cancel]

theorem shiftRows_invShiftRows (S : Block) : shiftRows (invShiftRows S) = S :=
  block_ext_cells fun r c => by rw [cellOf_shiftRows, cellOf_invShiftRows, add_sub_cancel_right]

/-- Settles O19: SHIFTROWS drives `shiftrows_stage` with mode level 0; row 0 moves by no column. -/
theorem shiftRowsRotatesRowsLeft : Obligations.ShiftRowsRotatesRowsLeft := by
  refine ⟨fun sIn s => ?_, by decide +kernel, by decide +kernel⟩
  refine ⟨driveShiftRows 0 sIn s, exec_shiftRows sIn s, ?_, byteOf_shiftRows sIn, ?_, shiftRows_eq_self, rfl, rfl, rfl⟩
  · exact cellOf_shiftRows sIn
  · exact fun c => (cellOf_shiftRows sIn 0 c).trans (by rw [add_zero])

/-- Settles O20: INVSHIFTROWS drives `shiftrows_stage` with mode level 1; two columns to the right are two columns
to the left. -/
theorem invShiftRowsRotatesRowsRight : Obligations.InvShiftRowsRotatesRowsRight := by
  refine ⟨fun sIn s => ?_, by decide +kernel⟩
  have hcell : ∀ r c, cellOf (driveShiftRows 1 sIn s).wires.shiftRows.sOut r c = cellOf sIn r (c - r) :=
    cellOf_invShiftRows sIn
  refine ⟨driveShiftRows 1 sIn s, exec_invShiftRows sIn s, fun r c => ?_, byteOf_invShiftRows sIn, fun c => ?_,
    fun c => ?_, invShiftRows_eq_self, rfl, rfl, rfl⟩
  · have hplace : (4 - r.val + c.val) % 4 = (c.val + 4 - r.val) % 4 := by omega
    exact (hcell r c).trans (congrArg (cellOf sIn r) (Fin.ext hplace))
  · rw [hcell, sub_zero]
  · have htwo : ∀ d : Fin 4, d - 2 = d + 2 := by decide
    rw [hcell, cellOf_shiftRows, htwo]

/-- Settles O26: the two shifts move each cell by opposite numbers of columns. -/
theorem shiftRowsInversePair : Obligations.ShiftRowsInversePair := fun S =>
  ⟨invShiftRows_shiftRows S, shiftRows_invShiftRows S⟩

/-! ## Byte substitution -/

theorem invSubBytes_subBytes (S : Block) : invSubBytes (subBytes S) = S :=
  block_ext fun i => by rw [byteOf_invSubBytes, byteOf_subBytes, invSbox_sbox]

theorem subBytes_invSubBytes (S : Block) : subBytes (invSubBytes S) = S :=
  block_ext fun i => by rw [byteOf_subBytes, byteOf_invSubBytes, sbox_invSbox]

/-- Bytes are moved and replaced, each wherever it stands. -/
theorem subBytes_shiftRows (S : Block) : subBytes (shiftRows S) = shiftRows (subBytes S) :=
  block_ext fun i => by simp only [byteOf_subBytes, byteOf_shiftRows]

theorem invSubBytes_invShiftRows (S : Block) : invSubBytes (invShiftRows S) = invShiftRows (invSubBytes S) :=
  block_ext fun i => by simp only [byteOf_invSubBytes, byteOf_invShiftRows]

/-- Settles O25: the tables undo each other byte by byte, and a row shift only moves bytes. -/
theorem subBytesInversePair : Obligations.SubBytesInversePair := fun S =>
  ⟨invSubBytes_subBytes S, subBytes_invSubBytes S, subBytes_shiftRows S, invSubBytes_invShiftRows S⟩

/-! ## Key addition -/

theorem addRoundKey_addRoundKey (S K : Block) : addRoundKey (addRoundKey S K) K = S :=
  calc S ^^^ K ^^^ K = S ^^^ (K ^^^ K) := BitVec.xor_assoc S K K
    _ = S := by rw [BitVec.xor_self, BitVec.xor_zero]

/-- Settles O28: the two laws of XOR. -/
theorem addRoundKeySelfInverse : Obligations.AddRoundKeySelfInverse := fun S K =>
  ⟨addRoundKey_addRoundKey S K, BitVec.xor_comm S K⟩

/-! ## Column mixing -/

theorem exec_mixColumns (sIn : Block) (s : State) : exec (.mixColumns sIn) s = .next (driveMixColumns 0 sIn s) := rfl

theorem columnOf_mixColumns (sIn : Block) (c : Fin 4) : columnOf (mixColumns sIn) c = xorDot MIX (columnOf sIn c) :=
  columnOf_mixWith MIX sIn c

/-- The product with MIX, written out (R152). -/
theorem xorDot_MIX (b0 b1 b2 b3 : Byte) :
    xorDot MIX #v[b0, b1, b2, b3] =
      #v[gmult 2 b0 ^^^ gmult 3 b1 ^^^ gmult 1 b2 ^^^ gmult 1 b3,
         gmult 1 b0 ^^^ gmult 2 b1 ^^^ gmult 3 b2 ^^^ gmult 1 b3,
         gmult 1 b0 ^^^ gmult 1 b1 ^^^ gmult 2 b2 ^^^ gmult 3 b3,
         gmult 3 b0 ^^^ gmult 1 b1 ^^^ gmult 1 b2 ^^^ gmult 2 b3] :=
  rfl

/-- The coefficients of each row of MIX sum to 1, so a column of equal bytes is its own product. -/
theorem xorDot_MIX_equal_bytes (b : Byte) : xorDot MIX #v[b, b, b, b] = #v[b, b, b, b] := by
  rw [xorDot_MIX, gmult_sum_eq_self (by decide), gmult_sum_eq_self (by decide), gmult_sum_eq_self (by decide),
    gmult_sum_eq_self (by decide)]

theorem mixColumns_zero : mixColumns 0 = 0 :=
  block_ext_columns fun c => by
    have hzero : columnOf 0 c = #v[0, 0, 0, 0] := by fin_cases c <;> rfl
    rw [columnOf_mixColumns, hzero, xorDot_MIX_equal_bytes]

/-- Settles O21: MIXCOLUMNS drives `mixcolumns_stage` with mode level 0; the coefficients 1 and 3 are resolved by
their field laws, and the two literal blocks are taken column by column. -/
theorem mixColumnsMultipliesEachColumn : Obligations.MixColumnsMultipliesEachColumn := by
  refine ⟨fun sIn s => ?_, mixColumns_zero, ?_, ?_⟩
  · refine ⟨driveMixColumns 0 sIn s, exec_mixColumns sIn s, fun c => ?_, rfl, rfl, rfl⟩
    have hproduct : columnOf (mixColumnsStage 0 sIn) c =
        xorDot MIX #v[cellOf sIn 0 c, cellOf sIn 1 c, cellOf sIn 2 c, cellOf sIn 3 c] :=
      columnOf_mixColumns sIn c
    refine ⟨hproduct, hproduct.trans ?_, fun h01 h12 h23 => hproduct.trans ?_⟩
    · simp only [xorDot_MIX, gmult_three, gmult_one_left]
    · rw [← h23, ← h12, ← h01, xorDot_MIX_equal_bytes]
  all_goals
    refine block_ext_columns fun c => ?_
    rw [columnOf_mixColumns]
    fin_cases c <;> decide

theorem xorDot_getElem (A : Matrix) (v : Column) (i : Fin 4) :
    (xorDot A v)[i] = gmult A[i][0] v[0] ^^^ gmult A[i][1] v[1] ^^^ gmult A[i][2] v[2] ^^^ gmult A[i][3] v[3] :=
  Vector.getElem_ofFn ..

/-- Two products in turn are the product with the product matrix. -/
theorem xorDot_xorDot_getElem (A B : Matrix) (v : Column) (i : Fin 4) :
    (xorDot A (xorDot B v))[i] =
      gmult (mulEntry A B i 0) v[0] ^^^ gmult (mulEntry A B i 1) v[1] ^^^ gmult (mulEntry A B i 2) v[2] ^^^
        gmult (mulEntry A B i 3) v[3] := by
  have h0 : (xorDot B v)[0] = _ := xorDot_getElem B v 0
  have h1 : (xorDot B v)[1] = _ := xorDot_getElem B v 1
  have h2 : (xorDot B v)[2] = _ := xorDot_getElem B v 2
  have h3 : (xorDot B v)[3] = _ := xorDot_getElem B v 3
  rw [xorDot_getElem, h0, h1, h2, h3]
  simp only [mulEntry, gmult_xor_left, gmult_xor_right, gmult_assoc]
  ac_rfl

/-- Products with inverse matrices undo each other on a column. -/
theorem xorDot_xorDot_cancel {A B : Matrix} (h : ∀ i j, mulEntry A B i j = if i = j then 1 else 0) (v : Column) :
    xorDot A (xorDot B v) = v := by
  refine Vector.ext fun i hi => (xorDot_xorDot_getElem A B v ⟨i, hi⟩).trans ?_
  have hunit (p : Prop) [Decidable p] (b : Byte) : gmult (if p then 1 else 0) b = if p then b else 0 := by
    split
    · exact gmult_one_left b
    · exact gmult_zero_left b
  simp only [h, hunit]
  interval_cases i <;> simp

theorem mixWith_mixWith_cancel {A B : Matrix} (h : ∀ i j, mulEntry A B i j = if i = j then 1 else 0) (S : Block) :
    mixWith A (mixWith B S) = S :=
  block_ext_columns fun c => by rw [columnOf_mixWith, columnOf_mixWith, xorDot_xorDot_cancel h]

theorem invMixColumns_mixColumns (S : Block) : invMixColumns (mixColumns S) = S :=
  mixWith_mixWith_cancel INVMIX_mul_MIX S

theorem mixColumns_invMixColumns (S : Block) : mixColumns (invMixColumns S) = S :=
  mixWith_mixWith_cancel MIX_mul_INVMIX S

/-- Settles O27: the two matrices are inverse to each other in both orders. -/
theorem mixColumnsInversePair : Obligations.MixColumnsInversePair := fun S =>
  ⟨invMixColumns_mixColumns S, mixColumns_invMixColumns S⟩

end Sys2Proof.Machine
end

section
/-! The micro-sequences: UDEC undoes UENC entry by entry from the end, and each sequence computes its command's
function, round by round. -/

namespace Sys2Proof.Machine

/-! ## Inverse micro-operations -/

/-- The micro-operation that undoes another. -/
def MicroOp.inverse : MicroOp → MicroOp
  | .ark r => .ark r
  | .sb => .isb
  | .isb => .sb
  | .sr => .isr
  | .isr => .sr
  | .mc => .imc
  | .imc => .mc

theorem applyMicroOp_inverse (u : MicroOp) (S : Block) (rks : RoundKeys) :
    applyMicroOp u.inverse (applyMicroOp u S rks) rks = S := by
  cases u with
  | ark r => exact addRoundKey_addRoundKey S rks[r]
  | sb => exact invSubBytes_subBytes S
  | isb => exact subBytes_invSubBytes S
  | sr => exact invShiftRows_shiftRows S
  | isr => exact shiftRows_invShiftRows S
  | mc => exact invMixColumns_mixColumns S
  | imc => exact mixColumns_invMixColumns S

/-- The entries of the two sequences at mirrored places are inverse to each other, in both directions. -/
theorem UDEC_mirrors_UENC : ∀ i : Fin 40,
    UDEC[i.val] = (UENC[39 - i.val]).inverse ∧ UENC[39 - i.val] = (UDEC[i.val]).inverse := by decide

/-- Settles O29: by the entries of the table. -/
theorem encryptSequenceClosedForm : Obligations.EncryptSequenceClosedForm := by
  refine ⟨rfl, ?_, rfl, rfl, rfl⟩
  decide

/-- Settles O30: the closed form by the entries of the table, the rest because each entry of one sequence is the
inverse of its mirror in the other. -/
theorem decryptSequenceMirrorsEncrypt : Obligations.DecryptSequenceMirrorsEncrypt := by
  refine ⟨⟨rfl, rfl, rfl, ?_, rfl⟩, fun i S rks => ?_⟩
  · decide
  · obtain ⟨hdec, henc⟩ := UDEC_mirrors_UENC i
    constructor
    · rw [hdec, applyMicroOp_inverse]
    · rw [henc, applyMicroOp_inverse]

/-- Settles O31: by counting in the two tables. -/
theorem eachRoundKeyIsUsedOnce : Obligations.EachRoundKeyIsUsedOnce := by
  unfold Obligations.EachRoundKeyIsUsedOnce
  decide

/-! ## Sequences of micro-operations -/

/-- Micro-operations applied in order. -/
def applyMicroOps (us : List MicroOp) (S : Block) (rks : RoundKeys) : Block :=
  us.foldl (fun S u => applyMicroOp u S rks) S

theorem stateAfter_forty (op : BitVec 1) (block : Block) (rks : RoundKeys) :
    stateAfter op 40 block rks = applyMicroOps (microSequence op).toList block rks := by
  rw [stateAfter, List.take_of_length_le (by simp), applyMicroOps]

theorem applyMicroOps_append (us vs : List MicroOp) (S : Block) (rks : RoundKeys) :
    applyMicroOps (us ++ vs) S rks = applyMicroOps vs (applyMicroOps us S rks) rks :=
  List.foldl_append

/-- The inverses in reverse order undo a sequence. -/
theorem applyMicroOps_inverse (us : List MicroOp) (S : Block) (rks : RoundKeys) :
    applyMicroOps (us.reverse.map MicroOp.inverse) (applyMicroOps us S rks) rks = S := by
  induction us generalizing S with
  | nil => rfl
  | cons u us ih =>
    rw [List.reverse_cons, List.map_append, applyMicroOps_append]
    exact (congrArg (applyMicroOp u.inverse · rks) (ih (applyMicroOp u S rks))).trans (applyMicroOp_inverse u S rks)

/-- One of the rounds 1 to 9 of R165. -/
def encryptRoundOps (r : Fin 11) : List MicroOp := [.sb, .sr, .mc, .ark r]

/-- One of the rounds 9 to 1 of R166. -/
def decryptRoundOps (r : Fin 11) : List MicroOp := [.ark r, .imc, .isr, .isb]

/-- UENC as R165 groups it: the key addition, nine full rounds, and the last round without MixColumns. -/
theorem UENC_rounds : UENC.toList =
    [MicroOp.ark 0] ++ [1, 2, 3, 4, 5, 6, 7, 8, 9].flatMap encryptRoundOps ++
      [MicroOp.sb, MicroOp.sr, MicroOp.ark 10] :=
  rfl

/-- UDEC as R166 groups it. -/
theorem UDEC_rounds : UDEC.toList =
    [MicroOp.ark 10, MicroOp.isr, MicroOp.isb] ++ [9, 8, 7, 6, 5, 4, 3, 2, 1].flatMap decryptRoundOps ++
      [MicroOp.ark 0] :=
  rfl

/-- Rounds in turn, each of them a few micro-operations. -/
theorem applyMicroOps_flatMap {rounds : List (Fin 11)} {ops : Fin 11 → List MicroOp} {round : Block → Fin 11 → Block}
    {rks : RoundKeys} (h : ∀ S r, applyMicroOps (ops r) S rks = round S r) (S : Block) :
    applyMicroOps (rounds.flatMap ops) S rks = rounds.foldl round S := by
  obtain rfl : (fun S r => applyMicroOps (ops r) S rks) = round := funext fun S => funext (h S)
  exact List.foldl_flatMap

theorem applyMicroOps_UENC (block key : Block) :
    applyMicroOps UENC.toList block (expandKey key) = encrypt block key := by
  have hround : ∀ S r, applyMicroOps (encryptRoundOps r) S (expandKey key) = encryptRound (expandKey key) S r :=
    fun _ _ => rfl
  rw [UENC_rounds, applyMicroOps_append, applyMicroOps_append, applyMicroOps_flatMap hround]
  rfl

theorem applyMicroOps_UDEC (block key : Block) :
    applyMicroOps UDEC.toList block (expandKey key) = decrypt block key := by
  have hround : ∀ S r, applyMicroOps (decryptRoundOps r) S (expandKey key) = decryptRound (expandKey key) S r :=
    fun _ _ => rfl
  rw [UDEC_rounds, applyMicroOps_append, applyMicroOps_append, applyMicroOps_flatMap hround]
  rfl

/-- All forty micro-operations of the sequence that `op` selects are the function that it selects. -/
theorem stateAfter_forty_eq_cipher (op : BitVec 1) (block key : Block) :
    stateAfter op 40 block (expandKey key) = cipher op block key := by
  rw [stateAfter_forty]
  rcases bit_cases op with rfl | rfl
  · exact applyMicroOps_UENC block key
  · exact applyMicroOps_UDEC block key

/-- Settles O32, for the two levels of `op`. -/
theorem microSequencesComputeTheCipher : Obligations.MicroSequencesComputeTheCipher := fun block key =>
  ⟨stateAfter_forty_eq_cipher 0 block key, stateAfter_forty_eq_cipher 1 block key⟩

/-! ## The round trip -/

theorem UDEC_eq_reverse_inverse : UDEC.toList = UENC.toList.reverse.map MicroOp.inverse := rfl

theorem UENC_eq_reverse_inverse : UENC.toList = UDEC.toList.reverse.map MicroOp.inverse := rfl

theorem decrypt_encrypt (P K : Block) : decrypt (encrypt P K) K = P := by
  rw [← applyMicroOps_UENC, ← applyMicroOps_UDEC, UDEC_eq_reverse_inverse, applyMicroOps_inverse]

theorem encrypt_decrypt (C K : Block) : encrypt (decrypt C K) K = C := by
  rw [← applyMicroOps_UENC, ← applyMicroOps_UDEC, UENC_eq_reverse_inverse, applyMicroOps_inverse]

/-- Settles O33: each sequence is the other one reversed, with every micro-operation inverted. -/
theorem cipherRoundTrip : Obligations.CipherRoundTrip := fun P K => ⟨decrypt_encrypt P K, encrypt_decrypt P K⟩

theorem encrypt_known_vector :
    encrypt 0x3243f6a8885a308d313198a2e0370734 0x2b7e151628aed2a6abf7158809cf4f3c =
      0x3925841d02dc09fbdc118597196a0b32 := by decide +kernel

/-- Settles O34: the encryption is computed, and the decryption undoes it. -/
theorem knownVector : Obligations.KnownVector :=
  ⟨encrypt_known_vector, encrypt_known_vector ▸ decrypt_encrypt ..⟩

end Sys2Proof.Machine
end

section
/-! The sequencer: the registers after any number of transitions in closed form, and what one edge, and a whole
command, does in consequence. -/

namespace Sys2Proof.Machine

/-! ## Any number of transitions in closed form -/

/-- The registers after `k` step transitions (R176). -/
def CoreRegs.stepped (c : CoreRegs) (k : Nat) : CoreRegs :=
  { c with
    state := stateAfterNext c.opQ c.seq.toNat k c.state c.rks
    seq := BitVec.ofNat 6 (c.seq.toNat + k) }

/-- The registers after the micro-operations that `k` transitions reach, and the finish (R177). -/
def CoreRegs.finished (c : CoreRegs) (k : Nat) : CoreRegs :=
  { c.finish with blockOut := stateAfterNext c.opQ c.seq.toNat k c.state c.rks }

theorem CoreRegs.stepped_zero (c : CoreRegs) : c.stepped 0 = c := by
  rw [stepped, stateAfterNext_zero, Nat.add_zero, BitVec.ofNat_toNat, BitVec.setWidth_eq]

theorem CoreRegs.stepped_seq_toNat {c : CoreRegs} {k : Nat} (h : c.seq.toNat + k ≤ 40) :
    (c.stepped k).seq.toNat = c.seq.toNat + k :=
  (BitVec.toNat_ofNat ..).trans (Nat.mod_eq_of_lt (by omega))

theorem CoreRegs.stateAfterNext_seqStep {c : CoreRegs} (h : c.seq.toNat < 40) (k : Nat) :
    stateAfterNext (c.seqStep h).opQ (c.seqStep h).seq.toNat k (c.seqStep h).state (c.seqStep h).rks =
      stateAfterNext c.opQ c.seq.toNat (k + 1) c.state c.rks := by
  rw [stateAfterNext_succ h, seqStep_seq_toNat, seqStep_opQ, seqStep_state, seqStep_rks]

theorem CoreRegs.stepped_seqStep {c : CoreRegs} (h : c.seq.toNat < 40) (k : Nat) :
    (c.seqStep h).stepped k = c.stepped (k + 1) := by
  rw [stepped, stateAfterNext_seqStep, seqStep_seq_toNat, Nat.add_assoc, Nat.add_comm 1 k]
  rfl

theorem CoreRegs.finished_seqStep {c : CoreRegs} (h : c.seq.toNat < 40) (k : Nat) :
    (c.seqStep h).finished k = c.finished (k + 1) := by
  rw [finished, stateAfterNext_seqStep]
  rfl

theorem CoreRegs.finished_of_eq {c : CoreRegs} (h : c.seq.toNat = 40) (k : Nat) : c.finished k = c.finish := by
  rw [finished, h, stateAfterNext_end]
  rfl

/-- Up to place 40 every transition is a step. -/
theorem CoreRegs.advance_eq_stepped {c : CoreRegs} (hrun : c.fsm = .run) {k : Nat} (hk : c.seq.toNat + k ≤ 40) :
    c.advance k = .ok (c.stepped k) := by
  induction k generalizing c with
  | zero => rw [stepped_zero, advance_zero]
  | succ k ih =>
    have hseq : c.seq.toNat < 40 := by omega
    have hrest : (c.seqStep hseq).seq.toNat + k ≤ 40 := by
      rw [seqStep_seq_toNat]
      omega
    rw [advance_run hrun (transition_of_lt hseq), ih (c := c.seqStep hseq) hrun hrest, stepped_seqStep]

/-- Past place 40 an edge ends with the finish. -/
theorem CoreRegs.advance_eq_finished {c : CoreRegs} (hrun : c.fsm = .run) {k : Nat} (hseq : c.seq.toNat ≤ 40)
    (hk : 40 < c.seq.toNat + k) : c.advance k = .ok (c.finished k) := by
  induction k generalizing c with
  | zero => omega
  | succ k ih =>
    rcases hseq.lt_or_eq with hlt | heq
    · have hle : (c.seqStep hlt).seq.toNat ≤ 40 := by
        rw [seqStep_seq_toNat]
        exact hlt
      have hrest : 40 < (c.seqStep hlt).seq.toNat + k := by
        rw [seqStep_seq_toNat]
        omega
      rw [advance_run hrun (transition_of_lt hlt), ih (c := c.seqStep hlt) hrun hle hrest, finished_seqStep]
    · rw [advance_run hrun (transition_of_eq heq), advance_idle rfl, finished_of_eq heq]

/-! ## One edge -/

/-- Quiet pins present no command (R173 line 2). -/
theorem step_drive_quietPins (s : State) : step (s.drive quietPins) = quietEdge s := rfl

theorem step_drive_quietPins_run {s : State} (hrun : s.core.fsm = .run) : step (s.drive quietPins) = runEdge s := by
  rw [step_drive_quietPins, quietEdge, clockEdge_run hrun]

/-- Settles O60: the closed forms of `advance`, taken at one edge. -/
theorem runningEdgeTakesAsManyTransitionsAsItsPace : Obligations.RunningEdgeTakesAsManyTransitionsAsItsPace := by
  rintro s k hrun rfl
  have hedge : ∀ c, s.core.advance (nextPace s.pace).1 = .ok c →
      step (s.drive quietPins) = .next { s with core := c, pace := (nextPace s.pace).2 } := fun c hc => by
    rw [step_drive_quietPins_run hrun, runEdge_of_ok hc]
  refine ⟨hedge, fun hzero => hedge s.core ?_, fun hk => hedge _ (CoreRegs.advance_eq_stepped hrun hk),
    fun hseq hk => hedge _ (CoreRegs.advance_eq_finished hrun hseq hk)⟩
  rw [hzero, CoreRegs.advance_zero]

/-- An edge that takes one transition. -/
theorem step_drive_quietPins_one {s : State} (hrun : s.core.fsm = .run) (hpace : (nextPace s.pace).1 = 1)
    {c : CoreRegs} (h : s.core.transition = .ok c) :
    step (s.drive quietPins) = .next { s with core := c, pace := (nextPace s.pace).2 } := by
  rw [step_drive_quietPins_run hrun, runEdge_of_ok]
  rw [hpace, CoreRegs.advance_run hrun h, CoreRegs.advance_zero]

/-- Settles O42: the one transition is a step. -/
theorem sequencerStepAppliesOneMicroOp : Obligations.SequencerStepAppliesOneMicroOp := by
  intro s h hrun hpace
  have hop : (if s.core.opQ = 0 then UENC[s.core.seq.toNat] else UDEC[s.core.seq.toNat]) =
      (microSequence s.core.opQ)[s.core.seq.toNat] := by
    rw [microSequence]
    split <;> rfl
  rw [hop]
  exact ⟨step_drive_quietPins_one hrun hpace (CoreRegs.transition_of_lt h), CoreRegs.seqStep_seq_toNat h⟩

/-- Settles O43: the one transition is the finish. -/
theorem sequencerFinishPublishesTheResult : Obligations.SequencerFinishPublishesTheResult :=
  fun _ h hrun hpace => step_drive_quietPins_one hrun hpace (CoreRegs.transition_of_eq h)

/-- Settles O54: the first of the transitions that the edge takes finds no line of R173. -/
theorem sequencerBeyondFortyFaults : Obligations.SequencerBeyondFortyFaults := by
  intro s hrun hseq hpace
  obtain ⟨k, hk⟩ := Nat.exists_eq_add_of_le' hpace
  rw [step_drive_quietPins_run hrun, runEdge, hk, CoreRegs.advance_run_error hrun (CoreRegs.transition_of_gt hseq)]

/-- Settles O41: without `start` an edge in `IDLE` leaves the registers as they are. -/
theorem idleWithoutStartHolds : Obligations.IdleWithoutStartHolds := by
  intro s p hrst hstart hidle
  rw [step_drive_core, if_neg (by simp [hrst]), if_neg (by simp [hstart]), clockEdge_idle hidle]

/-! ## A whole command -/

/-- A legal command and its function, by the level of `op` that selects both (R81, R165, R166). -/
theorem command_op {block key : Block} {i : Instr × Block}
    (hi : i ∈ [(Instr.encrypt 16 16 block key, encrypt block key),
      (Instr.decrypt 16 16 block key, decrypt block key)]) :
    ∃ op, (∀ s, exec i.1 s = commandEdge op 16 16 block key s) ∧ i.2 = cipher op block key := by
  rcases List.mem_pair.mp hi with rfl | rfl
  · exact ⟨0, fun _ => rfl, rfl⟩
  · exact ⟨1, fun _ => rfl, rfl⟩

/-- The whole sequence from place 0, and any number of transitions beyond it. -/
theorem stateAfterNext_whole (op : BitVec 1) {k : Nat} (hk : 40 ≤ k) (block key : Block) :
    stateAfterNext op 0 k block (expandKey key) = cipher op block key := by
  rw [← stateAfter_forty_eq_cipher, stateAfter_forty, stateAfterNext, List.drop_zero,
    List.take_of_length_le (by simpa using hk), applyMicroOps]

theorem CoreRegs.accept_finished_blockOut (c : CoreRegs) (op : BitVec 1) (block key : Block) {k : Nat} (hk : 40 ≤ k) :
    ((c.accept op block key).finished k).blockOut = cipher op block key :=
  stateAfterNext_whole op hk block key

/-- Settles O44: the accepted command stands at place 0, so `k` transitions lead to place `k` and 41 to the
finish. -/
theorem acceptedCommandComputesItsResult : Obligations.AcceptedCommandComputesItsResult := by
  intro s block key hidle i hi
  obtain ⟨op, hexec, hresult⟩ := command_op hi
  refine ⟨_, (hexec s).trans (commandEdge_legal hidle op block key), fun k hk => ?_, ?_⟩
  · have hplace : (s.core.accept op block key).seq.toNat + k ≤ 40 := by simpa using hk
    refine ⟨_, CoreRegs.advance_eq_stepped rfl hplace, rfl, ?_⟩
    rw [CoreRegs.stepped_seq_toNat hplace]
    exact Nat.zero_add k
  · refine ⟨_, CoreRegs.advance_eq_finished rfl (by simp) (by simp), rfl, rfl, rfl, ?_, rfl, ?_, rfl⟩
    · rw [hresult, CoreRegs.accept_finished_blockOut _ _ _ _ (by decide)]
    · exact fun r => Vector.getElem_replicate ..

/-- Settles O47: acceptance overwrites every register, and a rejection every one that the outputs show. -/
theorem responseIsStateless : Obligations.ResponseIsStateless := by
  intro s u dataLen keyLen block key hs hu i hi
  obtain ⟨op, hexec⟩ : ∃ op, ∀ s, exec i s = commandEdge op dataLen keyLen block key s := by
    rcases List.mem_pair.mp hi with rfl | rfl
    · exact ⟨0, fun _ => rfl⟩
    · exact ⟨1, fun _ => rfl⟩
  rw [hexec, hexec]
  by_cases hlen : dataLen = 16 ∧ keyLen = 16
  · obtain ⟨rfl, rfl⟩ := hlen
    have hfinish (c : CoreRegs) :=
      CoreRegs.advance_eq_finished (c := c.accept op block key) (k := 41) rfl (by simp) (by simp)
    exact ⟨_, _, _, _, commandEdge_legal hs op block key, commandEdge_legal hu op block key, hfinish s.core,
      hfinish u.core, rfl, rfl, .inl rfl⟩
  · have hedge {v : State} (hv : v.core.fsm = .idle) := commandEdge_illegal hv (not_and_or.mp hlen) op block key
    have houtputs {c : CoreRegs} (hc : c.fsm = .idle) :
        c.raiseInvalidLength.outputs = { busy := false, done := false, err := true, blockOut := 0 } := by
      simp [CoreRegs.outputs, CoreRegs.busy, hc]
    have hhold {c : CoreRegs} (hc : c.fsm = .idle) := CoreRegs.advance_idle (c := c.raiseInvalidLength) hc 41
    refine ⟨_, _, _, _, hedge hs, hedge hu, hhold hs, hhold hu, ?_, ?_, .inr rfl⟩
    · rw [houtputs hs, houtputs hu]
    · exact congrArg CoreOutputs.busy (houtputs hs)

end Sys2Proof.Machine
end

section
/-! From acceptance to the response: how far the command has come is the number of its transitions so far, whatever
edges and module events they were spread over; each step shortens the host's list or the list of paces, or takes a
transition. -/

namespace Sys2Proof.Machine

/-! ## Counting transitions over several edges -/

/-- The first of several transitions, then the others. -/
theorem CoreRegs.advance_succ {n : Nat} {c d : CoreRegs} (h : c.advance (n + 1) = .ok d) :
    ∃ e, c.advance 1 = .ok e ∧ e.advance n = .ok d := by
  cases hfsm : c.fsm with
  | idle =>
    rw [advance_idle hfsm] at h
    exact ⟨c, advance_idle hfsm 1, (advance_idle hfsm n).trans h⟩
  | run =>
    cases ht : c.transition with
    | error r => simp [advance_run_error hfsm ht] at h
    | ok e => exact ⟨e, advance_run hfsm ht 0, (advance_run hfsm ht n).symm.trans h⟩

/-- Transitions of one edge after those of another. -/
theorem CoreRegs.advance_add {m : Nat} {c d : CoreRegs} (h : c.advance m = .ok d) (n : Nat) :
    c.advance (m + n) = d.advance n := by
  induction m generalizing c with
  | zero =>
    obtain rfl : c = d := by simpa using h
    rw [Nat.zero_add]
  | succ m ih =>
    cases hfsm : c.fsm with
    | idle =>
      obtain rfl : c = d := by simpa [advance_idle hfsm] using h
      rw [advance_idle hfsm, advance_idle hfsm]
    | run =>
      cases ht : c.transition with
      | error r => simp [advance_run_error hfsm ht] at h
      | ok e =>
        rw [advance_run hfsm ht] at h
        rw [Nat.succ_add, advance_run hfsm ht, ih h]

/-- The outputs of a running command (R174, R176). -/
def busyOutputs : CoreOutputs := { busy := true, done := false, err := false, blockOut := 0 }

/-- The outputs after a finish (R177). -/
def responseOutputs (result : Block) : CoreOutputs := { busy := false, done := true, err := false, blockOut := result }

/-- The registers `c` are those of an accepted command after `n` transitions, and its finish is still to come. -/
def AtPlace (op : BitVec 1) (block key : Block) (n : Nat) (c : CoreRegs) : Prop :=
  n ≤ 40 ∧ c = (CoreRegs.reset.accept op block key).stepped n

/-- Acceptance writes every register, so the state before it does not matter (R174). -/
theorem atPlace_accept (c : CoreRegs) (op : BitVec 1) (block key : Block) :
    AtPlace op block key 0 (c.accept op block key) :=
  ⟨Nat.zero_le 40, (CoreRegs.stepped_zero _).symm⟩

section place

variable {op : BitVec 1} {block key : Block}

theorem AtPlace.run {n : Nat} {c : CoreRegs} (h : AtPlace op block key n c) : c.fsm = .run := by
  obtain ⟨-, rfl⟩ := h
  rfl

theorem AtPlace.outputs {n : Nat} {c : CoreRegs} (h : AtPlace op block key n c) : c.outputs = busyOutputs := by
  obtain ⟨-, rfl⟩ := h
  rfl

/-- Transitions lead from place to place, or to the response. -/
theorem AtPlace.advance_cases {n : Nat} {c : CoreRegs} (h : AtPlace op block key n c) (k : Nat) :
    ∃ d, c.advance k = .ok d ∧
      (AtPlace op block key (n + k) d ∨ d.outputs = responseOutputs (cipher op block key)) := by
  obtain ⟨hn, rfl⟩ := h
  have hstart : (CoreRegs.reset.accept op block key).advance n = .ok _ :=
    CoreRegs.advance_eq_stepped rfl (by simpa using hn)
  rw [← CoreRegs.advance_add hstart]
  rcases le_or_gt (n + k) 40 with hk | hk
  · exact ⟨_, CoreRegs.advance_eq_stepped rfl (by simpa using hk), .inl ⟨hk, rfl⟩⟩
  · refine ⟨_, CoreRegs.advance_eq_finished rfl (by simp) (by simpa using hk), .inr ?_⟩
    have hresult := CoreRegs.accept_finished_blockOut CoreRegs.reset op block key hk.le
    rw [CoreRegs.outputs, hresult]
    rfl

/-! ## The host and the paces grow shorter -/

theorem nextPins_rest_suffix (busy : Bool) (host : List HostAction) : (nextPins busy host).2 <:+ host := by
  induction host with
  | nil => exact List.suffix_rfl
  | cons action rest ih =>
    cases action with
    | drive p => exact List.suffix_cons ..
    | wait =>
      cases busy with
      | true => exact List.suffix_rfl
      | false => exact ih.trans (List.suffix_cons ..)

/-- Pins other than the quiet ones are an action of the host, which is then over. -/
theorem nextPins_rest_length_lt {busy : Bool} {host : List HostAction} (h : (nextPins busy host).1 ≠ quietPins) :
    (nextPins busy host).2.length < host.length := by
  induction host with
  | nil => exact absurd rfl h
  | cons action rest ih =>
    cases action with
    | drive p => exact Nat.lt_succ_self _
    | wait =>
      cases busy with
      | true => exact absurd rfl h
      | false => exact (ih h).trans (Nat.lt_succ_self _)

/-- An edge takes a transition or uses up a pace. -/
theorem nextPace_progress (pace : List Nat) {n : Nat} (hn : n ≤ 40) :
    (nextPace pace).2.length + (41 - (n + (nextPace pace).1)) < pace.length + (41 - n) := by
  cases pace with
  | nil =>
    change 0 + (41 - (n + 1)) < 0 + (41 - n)
    omega
  | cons k rest =>
    change rest.length + (41 - (n + k)) < rest.length + 1 + (41 - n)
    omega

/-- The pins of an edge are ones that the host drives, or the quiet ones. -/
theorem fetch_core_mem_or_quiet {s : State} {p : CorePins} (hpins : (fetch s).1 = .core p) :
    HostAction.drive (.core p) ∈ s.host ∨ .core p = quietPins :=
  hpins ▸ nextPins_mem_or_quiet s.core.busy s.host

theorem NeverResets.fetched {s : State} (h : NeverResets s.host) : NeverResets (fetch s).2.host :=
  fun p hp => h p (nextPins_rest_mem _ _ hp)

/-- No edge of such a host asserts reset, the quiet ones included. -/
theorem NeverResets.rst_eq_false {s : State} (h : NeverResets s.host) {p : CorePins} (hpins : (fetch s).1 = .core p) :
    p.rst = false := by
  rcases fetch_core_mem_or_quiet hpins with hmem | hquiet
  · exact h p hmem
  · obtain rfl := Pins.core.inj hquiet
    rfl

/-! ## One step of a running command -/

/-- What is left to do before the response: actions, paces and transitions. -/
def remaining (n : Nat) (s : State) : Nat := s.host.length + s.pace.length + (41 - n)

/-- A step of a running command takes some of what remains, or gives the response. -/
theorem AtPlace.step_cases {n : Nat} {s : State} (h : AtPlace op block key n s.core) (hhost : NeverResets s.host) :
    ∃ t, step s = .next t ∧
      (t.core.outputs = responseOutputs (cipher op block key) ∨
        NeverResets t.host ∧ ∃ m, AtPlace op block key m t.core ∧ remaining m t < remaining n s) := by
  by_cases hmodule : ∀ p, (fetch s).1 ≠ .core p
  · obtain ⟨t, ht, hcore, hrest, hpace⟩ := step_of_module hmodule
    have hlength : t.host.length < s.host.length := hrest ▸ nextPins_rest_length_lt (hmodule _)
    refine ⟨t, ht, .inr ⟨hrest ▸ hhost.fetched, n, hcore ▸ h, ?_⟩⟩
    rw [remaining, remaining, hpace]
    omega
  · obtain ⟨p, hpins⟩ := not_forall_not.mp hmodule
    obtain ⟨d, hd, hplace⟩ := h.advance_cases (nextPace s.pace).1
    refine ⟨{ (fetch s).2 with core := d, pace := (nextPace s.pace).2 }, ?_, ?_⟩
    · rw [step_of_core hpins, if_neg (by simp [hhost.rst_eq_false hpins])]
      exact (clockEdge_run (s := (fetch s).2) h.run).trans (runEdge_of_ok (s := (fetch s).2) hd)
    · refine hplace.symm.imp_right fun hplace => ⟨hhost.fetched, _, hplace, ?_⟩
      have hlength : (fetch s).2.host.length ≤ s.host.length := (nextPins_rest_suffix ..).length_le
      have hprogress := nextPace_progress s.pace h.1
      rw [remaining, remaining]
      change (fetch s).2.host.length + (nextPace s.pace).2.length + _ < _
      omega

/-! ## The run to the response -/

/-- Every timing and every host that does not reset lead to the response, with a busy core until then. -/
theorem AtPlace.reaches_response {n : Nat} {s : State} (h : AtPlace op block key n s.core)
    (hhost : NeverResets s.host) : ∃ k t, runSteps k s = .next t ∧
      t.core.outputs = responseOutputs (cipher op block key) ∧
      ∀ m, m < k → ∃ u, runSteps m s = .next u ∧ u.core.outputs = busyOutputs := by
  obtain ⟨t, ht, hresponse | ⟨hhost', m, hm, hless⟩⟩ := h.step_cases hhost
  · refine ⟨1, t, by simp [runSteps, ht], hresponse, fun m hm => ⟨s, ?_, h.outputs⟩⟩
    rw [Nat.lt_one_iff.mp hm, runSteps]
  · obtain ⟨k, v, hrun, hresponse, hbusy⟩ := hm.reaches_response hhost'
    refine ⟨k + 1, v, by simp [runSteps, ht, hrun], hresponse, fun j hj => ?_⟩
    cases j with
    | zero => exact ⟨s, rfl, h.outputs⟩
    | succ j => simpa [runSteps, ht] using hbusy j (Nat.lt_of_succ_lt_succ hj)
termination_by remaining n s

end place

/-- Settles O45: the accepted command stands at place 0. -/
theorem everyPaceReachesTheResponse : Obligations.EveryPaceReachesTheResponse := by
  intro s block key hidle hhost i hi
  obtain ⟨op, hexec, hresult⟩ := command_op hi
  have hplace : AtPlace op block key 0 (s.core.accept op block key) := atPlace_accept ..
  obtain ⟨n, t, hrun, hresponse, hbusy⟩ :=
    AtPlace.reaches_response (s := { s with core := s.core.accept op block key }) hplace hhost
  exact ⟨_, t, n, (hexec s).trans (commandEdge_legal hidle op block key), hrun, hresult ▸ hresponse, hbusy⟩

/-! ## The reference timing -/

theorem fetch_of_silent {s : State} (hhost : s.host = []) : fetch s = (quietPins, s) := by
  obtain ⟨core, wires, host, pace⟩ := s
  obtain rfl : host = [] := hhost
  rfl

theorem step_of_fetch_quietPins {s s' : State} (h : fetch s = (quietPins, s')) : step s = quietEdge s' := by
  unfold step
  rw [h]
  rfl

/-- With a silent host and no paces a step is one transition where the command runs, and none in `IDLE`. -/
theorem step_silent {s : State} (hhost : s.host = []) (hpace : s.pace = []) {c : CoreRegs}
    (h : s.core.advance 1 = .ok c) : step s = .next { s with core := c } := by
  rw [step_of_fetch_quietPins (fetch_of_silent hhost), quietEdge]
  cases hfsm : s.core.fsm with
  | idle =>
    obtain rfl : s.core = c := by simpa [CoreRegs.advance_idle hfsm] using h
    exact clockEdge_idle hfsm
  | run =>
    have hone : nextPace s.pace = (1, s.pace) := by
      rw [hpace]
      rfl
    rw [clockEdge_run hfsm, runEdge_of_ok (by rw [hone]; exact h), hone]

theorem runSteps_silent {s : State} (hhost : s.host = []) (hpace : s.pace = []) {n : Nat} {c : CoreRegs}
    (h : s.core.advance n = .ok c) : runSteps n s = .next { s with core := c } := by
  induction n generalizing s with
  | zero =>
    obtain rfl : s.core = c := by simpa using h
    rfl
  | succ n ih =>
    obtain ⟨d, hd, hrest⟩ := CoreRegs.advance_succ h
    rw [runSteps, step_silent hhost hpace hd]
    exact ih (s := { s with core := d }) hhost hpace hrest

/-- Settles O46: after `n` steps the accepted command has taken `n` transitions. -/
theorem referenceLatencyIsFortyOne : Obligations.ReferenceLatencyIsFortyOne := by
  intro s block key hidle hhost hpace i hi
  obtain ⟨op, hexec, hresult⟩ := command_op hi
  have hstart : AtPlace op block key 0 (s.core.accept op block key) := atPlace_accept ..
  have hrun {n : Nat} {c : CoreRegs} (h : (s.core.accept op block key).advance n = .ok c) :=
    runSteps_silent (s := { s with core := s.core.accept op block key }) hhost hpace h
  refine ⟨_, (hexec s).trans (commandEdge_legal hidle op block key), ?_, fun n hn => ?_⟩
  · obtain ⟨c, hc, hplace | hresponse⟩ := hstart.advance_cases 41
    · exact absurd hplace.1 (by decide)
    · exact ⟨_, hrun hc, hresult ▸ hresponse⟩
  · have hplace : (s.core.accept op block key).seq.toNat + n ≤ 40 := by simpa using hn
    exact ⟨_, hrun (CoreRegs.advance_eq_stepped rfl hplace), rfl⟩

end Sys2Proof.Machine
end

section
/-! Safety of single steps: the wires of the modules, no step that stops, the status flags and the events that may
change them, and what commands, module operations and a waiting host leave alone. -/

namespace Sys2Proof.Machine

/-! ## Well-formed registers -/

theorem ModuleWires.reset_settled : ModuleWires.reset.Settled :=
  ⟨rfl, rfl, roundKeyOfFlat_flatten (expandKey 0), rfl, rfl, rfl, rfl⟩

/-- Settles O50: an idle core that is clear and shows no response, and outputs computed from their inputs. -/
theorem resetMeetsTheInvariants : Obligations.ResetMeetsTheInvariants :=
  ⟨CoreRegs.reset_meetsR34.1, CoreRegs.reset_meetsR34.2, ModuleWires.reset_settled⟩

/-- Settles O51: a step leaves all wires alone or drives the inputs of one module, whose output follows. -/
theorem stepKeepsTheWiresSettled : Obligations.StepKeepsTheWiresSettled := by
  intro s t hs h
  rcases step_cases h with ⟨-, hwires, -⟩ | ⟨-, hwires, -⟩ | ⟨-, hwires, -⟩ | ⟨-, -, u, hu, hdrive⟩
  · rwa [hwires]
  · rwa [hwires]
  · rwa [hwires]
  · rw [← hu] at hs
    obtain ⟨hgfm, hsbox, hkey, hsub, hshift, hmix, hadd⟩ := hs
    rcases hdrive with ⟨a, b, ht⟩ | ⟨inv, x, ht⟩ | ⟨key, ht⟩ | ⟨inv, b, ht⟩ | ⟨inv, b, ht⟩ | ⟨inv, b, ht⟩ | ⟨b, rk, ht⟩
    all_goals rw [ht]
    · exact ⟨rfl, hsbox, hkey, hsub, hshift, hmix, hadd⟩
    · exact ⟨hgfm, rfl, hkey, hsub, hshift, hmix, hadd⟩
    · exact ⟨hgfm, hsbox, roundKeyOfFlat_flatten (expandKey key), hsub, hshift, hmix, hadd⟩
    · exact ⟨hgfm, hsbox, hkey, rfl, hshift, hmix, hadd⟩
    · exact ⟨hgfm, hsbox, hkey, hsub, rfl, hmix, hadd⟩
    · exact ⟨hgfm, hsbox, hkey, hsub, hshift, rfl, hadd⟩
    · exact ⟨hgfm, hsbox, hkey, hsub, hshift, hmix, rfl⟩

/-- Settles O52: in `RUN` there is no response, and in `IDLE` at most one of the two. -/
theorem onlyFourStatusWords : Obligations.OnlyFourStatusWords := by
  rintro c ⟨-, hrunning, -, hexclude, -⟩
  cases hfsm : c.fsm with
  | run =>
    obtain ⟨hdone, herr, -, -⟩ := hrunning hfsm
    simp only [CoreRegs.status, CoreRegs.busy, hfsm, hdone, herr]
    decide
  | idle =>
    cases hdone : c.done <;> cases herr : c.err
    case true.true => exact absurd ⟨hdone, herr⟩ hexclude
    all_goals
      simp only [CoreRegs.status, CoreRegs.busy, hfsm, hdone, herr]
      decide

/-! ## No step stops -/

/-- With `seq` in its range the sequencer always has a transition (R25). -/
theorem CoreRegs.advance_total {c : CoreRegs} (hrun : c.fsm = .run) (hseq : c.seq.toNat ≤ 40) (k : Nat) :
    ∃ d, c.advance k = .ok d := by
  rcases le_or_gt (c.seq.toNat + k) 40 with hk | hk
  · exact ⟨_, advance_eq_stepped hrun hk⟩
  · exact ⟨_, advance_eq_finished hrun hseq hk⟩

theorem clockEdge_total {f : CoreRegs → CoreRegs} {s : State} (h : s.core.WellFormed) :
    ∃ t, clockEdge f s = .next t := by
  cases hfsm : s.core.fsm with
  | idle => exact ⟨_, clockEdge_idle hfsm⟩
  | run =>
    obtain ⟨-, hrunning, -⟩ := h
    obtain ⟨-, -, -, hseq⟩ := hrunning hfsm
    obtain ⟨d, hd⟩ := CoreRegs.advance_total hfsm hseq (nextPace s.pace).1
    exact ⟨_, (clockEdge_run hfsm).trans (runEdge_of_ok hd)⟩

/-- Settles O53: module events and resets always complete, and so does a clock edge of well-formed registers. -/
theorem noStepStops : Obligations.NoStepStops := by
  intro s hs
  by_cases hmodule : ∀ p, (fetch s).1 ≠ .core p
  · obtain ⟨t, ht, -⟩ := step_of_module hmodule
    exact ⟨t, ht⟩
  · obtain ⟨p, hpins⟩ := not_forall_not.mp hmodule
    rw [step_of_core hpins]
    split
    · exact ⟨_, resetEdge_eq _⟩
    · exact clockEdge_total (s := (fetch s).2) hs

/-! ## The events that change the registers -/

/-- Transitions change `done` only by a finish, which ends in `IDLE`. -/
theorem CoreRegs.advance_done {n : Nat} {c d : CoreRegs} (h : c.advance n = .ok d) :
    d.done = c.done ∨ d.done = true ∧ d.fsm = .idle :=
  advance_induct (P := fun e => e.done = c.done ∨ e.done = true ∧ e.fsm = .idle)
    (fun _ _ _ he => he) (fun _ _ _ _ => .inr ⟨rfl, rfl⟩) h (.inl rfl)

theorem CoreEvent.done_falls {s : State} {c : CoreRegs} (h : CoreEvent s c) (hs : s.core.done = true)
    (hc : c.done = false) : ∃ p, (fetch s).1 = .core p ∧ (p.rst = true ∨ (p.start = true ∧ s.core.fsm = .idle)) := by
  cases h with
  | reset hpins hrst => exact ⟨_, hpins, .inl hrst⟩
  | accept hpins hidle _ hstart | reject hpins hidle _ hstart => exact ⟨_, hpins, .inr ⟨hstart, hidle⟩⟩
  | quiet | module => simp [hs] at hc
  | run _ _ _ hadvance => rcases CoreRegs.advance_done hadvance with hd | ⟨hd, -⟩ <;> simp [hd, hs] at hc

theorem CoreEvent.done_rises {s : State} {c : CoreRegs} (h : CoreEvent s c) (hs : s.core.done = false)
    (hc : c.done = true) : s.core.fsm = .run ∧ c.fsm = .idle := by
  cases h with
  | reset | accept | reject => simp at hc
  | quiet | module => simp [hs] at hc
  | run _ hrun _ hadvance =>
    rcases CoreRegs.advance_done hadvance with hd | ⟨-, hidle⟩
    · simp [hd, hs] at hc
    · exact ⟨hrun, hidle⟩

theorem CoreEvent.err_rises {s : State} {c : CoreRegs} (h : CoreEvent s c) (hs : s.core.err = false)
    (hc : c.err = true) : ∃ p, (fetch s).1 = .core p ∧ p.rst = false ∧ p.start = true ∧ s.core.fsm = .idle ∧
      (p.dataLen ≠ 16 ∨ p.keyLen ≠ 16) := by
  cases h with
  | reset | accept => simp at hc
  | quiet | module => simp [hs] at hc
  | reject hpins hidle hrst hstart hlen => exact ⟨_, hpins, hrst, hstart, hidle, not_and_or.mp hlen⟩
  | run _ _ _ hadvance => simp [(CoreRegs.advance_keeps hadvance).1, hs] at hc

theorem CoreEvent.err_falls {s : State} {c : CoreRegs} (h : CoreEvent s c) (hs : s.core.err = true)
    (hc : c.err = false) : ∃ p, (fetch s).1 = .core p ∧
      (p.rst = true ∨ (p.start = true ∧ s.core.fsm = .idle ∧ p.dataLen = 16 ∧ p.keyLen = 16)) := by
  cases h with
  | reset hpins hrst => exact ⟨_, hpins, .inl hrst⟩
  | accept hpins hidle _ hstart hdata hkey => exact ⟨_, hpins, .inr ⟨hstart, hidle, hdata, hkey⟩⟩
  | quiet | module => simp [hs] at hc
  | reject => simp at hc
  | run _ _ _ hadvance => simp [(CoreRegs.advance_keeps hadvance).1, hs] at hc

/-- Settles O55: of the events of a step, each of the four changes is possible at its own only. -/
theorem onlyTheirEventsChangeDoneAndErr : Obligations.OnlyTheirEventsChangeDoneAndErr := by
  intro s t _ h
  obtain ⟨hevent, -⟩ := coreEvent_of_step h
  exact ⟨hevent.done_falls, hevent.done_rises, hevent.err_rises, hevent.err_falls⟩

theorem CoreEvent.leaves_idle {s : State} {c : CoreRegs} (h : CoreEvent s c) (hs : s.core.fsm = .idle)
    (hc : c.fsm = .run) : ∃ p, (fetch s).1 = .core p ∧ p.rst = false ∧ p.start = true ∧ p.dataLen = 16 ∧
      p.keyLen = 16 ∧ c = s.core.accept p.op p.blockIn p.keyIn := by
  cases h with
  | reset => simp at hc
  | quiet | module | reject => simp [hs] at hc
  | run _ hrun => simp [hs] at hrun
  | accept hpins _ hrst hstart hdata hkey => exact ⟨_, hpins, hrst, hstart, hdata, hkey, rfl⟩

/-- Settles O56: of the events of a step, acceptance alone leads from `IDLE` to `RUN`. -/
theorem onlyAcceptanceLeavesIdle : Obligations.OnlyAcceptanceLeavesIdle :=
  fun _ _ hidle h hrun => (coreEvent_of_step h).1.leaves_idle hidle hrun

/-! ## A host that ties both lengths -/

/-- Every edge on the ports of a host that ties both declared lengths, with a command on it, carries them. -/
theorem tied_lengths {s : State}
    (hhost : ∀ p : CorePins, HostAction.drive (.core p) ∈ s.host → p.dataLen = 16 ∧ p.keyLen = 16)
    {p : CorePins} (hpins : (fetch s).1 = .core p) (hstart : p.start = true) : p.dataLen = 16 ∧ p.keyLen = 16 := by
  rcases fetch_core_mem_or_quiet hpins with hmem | hquiet
  · exact hhost p hmem
  · obtain rfl := Pins.core.inj hquiet
    cases hstart

/-- Settles O57: the one event that sets `err` needs a length other than 16 on the pins. -/
theorem tiedLengthsNeverRaiseInvalidLength : Obligations.TiedLengthsNeverRaiseInvalidLength := by
  intro s t hhost herr h
  obtain ⟨hevent, hrest⟩ := coreEvent_of_step h
  refine ⟨?_, fun p hp => hhost p (nextPins_rest_mem _ _ (hrest ▸ hp)), fun p hpins hrst hstart hidle => ?_⟩
  · by_contra hset
    obtain ⟨p, hpins, -, hstart, -, hlen⟩ := hevent.err_rises herr (Bool.eq_true_of_not_eq_false hset)
    exact not_and_or.mpr hlen (tied_lengths hhost hpins hstart)
  · obtain ⟨hdata, hkey⟩ := tied_lengths hhost hpins hstart
    rw [step_of_core hpins, if_neg (by simp [hrst]), if_pos hstart, clockEdge_idle (s := (fetch s).2) hidle] at h
    rw [← Host.Outcome.next.inj h]
    exact CoreRegs.present_legal hdata hkey

/-! ## Frames -/

theorem commandEdge_frame {op : BitVec 1} {dataLen keyLen : BitVec 5} {block key : Block} {s t : State}
    (h : commandEdge op dataLen keyLen block key s = .next t) : t.wires = s.wires ∧ t.host = s.host := by
  rcases clockEdge_cases h with ⟨-, rfl⟩ | ⟨-, c, -, rfl⟩ <;> exact ⟨rfl, rfl⟩

/-- Settles O58: a command is a clock edge of `aes_core`, a module operation a drive of one module's inputs. -/
theorem coreAndModulesDoNotInterfere : Obligations.CoreAndModulesDoNotInterfere := by
  refine ⟨fun s t dataLen keyLen block key h => ?_, fun i s hmodule => ?_⟩
  · rw [exec_encrypt, exec_decrypt] at h
    exact h.elim commandEdge_frame commandEdge_frame
  · cases i with
    | encrypt | decrypt => exact absurd rfl hmodule
    | _ => exact ⟨_, rfl, rfl, rfl, rfl⟩

/-! ## The host's list -/

/-- A host that is not held by a busy core passes over its WAITs (R97). -/
theorem nextPins_replicate_wait (waits : Nat) (rest : List HostAction) :
    nextPins false (List.replicate waits .wait ++ rest) = nextPins false rest := by
  induction waits with
  | zero => rfl
  | succ waits ih => exact ih

theorem step_of_decode {s : State} {i : Instr} (h : decode (fetch s).1 = .ok i) : step s = exec i (fetch s).2 := by
  unfold step
  rw [h]

/-- A step looks at the host's list only through the pins that come next and what is left after them. -/
theorem step_congr_nextPins {s : State} {host host' : List HostAction}
    (h : nextPins s.core.busy host = nextPins s.core.busy host') :
    step { s with host := host } = step { s with host := host' } := by
  have hfetch : fetch { s with host := host } = fetch { s with host := host' } := by
    simp only [fetch]
    rw [h]
  unfold step
  rw [hfetch]

/-- Settles O35: the fetch gives the driven pins, past any WAITs of a host that is not held. -/
theorem stepRunsTheDecodedOperation : Obligations.StepRunsTheDecodedOperation := by
  refine ⟨fun s p i h => step_of_decode h, fun s p i waits h hbusy => ?_, fun s i h => step_of_decode h⟩
  have hwaits : nextPins s.core.busy (List.replicate waits .wait ++ .drive p :: s.host) =
      nextPins s.core.busy (.drive p :: s.host) := by
    rw [hbusy, nextPins_replicate_wait]
  rw [step_congr_nextPins hwaits]
  exact step_of_decode (s := s.drive p) h

/-- Settles O59: the three lists by what the fetch gives. -/
theorem waitHoldsTheHostUntilIdle : Obligations.WaitHoldsTheHostUntilIdle := by
  refine fun s rest => ⟨fun hbusy => step_of_fetch_quietPins ?_, fun hbusy => step_congr_nextPins ?_,
    step_of_fetch_quietPins (fetch_of_silent rfl)⟩
  · simp [fetch, nextPins, hbusy]
  · rw [hbusy]
    exact nextPins_replicate_wait 1 rest

end Sys2Proof.Machine
end
